-- ==== Sys2Proof/Word.lean ====
section
/-! DEFINITION. The widths of BPCA-1's words (spec 00_scope R7, R9). -/

namespace Sys2Proof

/-- A command word, `CMD_W = 16` bits (R7, R55). -/
abbrev Word := BitVec 16

/-- A character code, an input symbol or an output group in a response, 8 bits (R12, R56, R68). -/
abbrev Byte := BitVec 8

/-- A 5-bit checksum symbol, `SYM_W` (R7). -/
abbrev Sym := BitVec 5

/-- The checksum accumulator's width, `CK_W = 30` bits (R7). -/
abbrev Acc := BitVec 30

/-- A status code or an error latch, `STATUS_W = 4` bits (R7). -/
abbrev Code := BitVec 4

end Sys2Proof
end

