-- ==== Sys2Proof/Config.lean ====
section
/-! DEFINITION. What an implementation fixes and the spec leaves open (spec 93 U2, U3). None of these has a body: no proof can see
their values, so a statement about them holds for every value. -/

namespace Sys2Proof

/-- By how many edges the latency of a command exceeds its minimum of 1: `CMD_LATENCY = 1 + extraLatency e` for the command whose first
edge after acceptance has the number `e` (spec 00_scope R8, 93 U2). Free value, log 3. DESIGN CHOICE (log 3): it is applied to the edge's
number and not to the command word, where 70_reset R160 leaves open whether the latency depends on the command or its operands; so the
latencies of two different commands accepted at the same edge number in two runs are equal here, which no rule says. -/
opaque Config.extraLatency : Nat → Nat

/-- The pins `rsp_status` at edge `e` while `rsp_valid = 0` (spec 93 U3). Free value, log 8. -/
opaque Config.undrivenStatus : Nat → Code

/-- The pins `rsp_count` at edge `e` while `rsp_valid = 0` (spec 93 U3). Free value, log 8. -/
opaque Config.undrivenCount : Nat → BitVec 4

/-- The pins `rsp_data` at edge `e` while `rsp_valid = 0` (spec 93 U3). Free value, log 8. -/
opaque Config.undrivenData : Nat → BitVec 64

end Sys2Proof
end

