-- ==== Sys2Proof/Machine/State.lean ====
section
/-! DEFINITION. The state of BPCA-1 as plain data: the registers of spec 10_state R20 and R36, the hidden state of R34, and the host's side
of the ports of 30_encoding R70. -/

namespace Sys2Proof.Machine

/-- The status codes the block produces (spec 60_exceptions R130); `statusCode` gives their numbers. -/
inductive Status where
  | ok
  | illegal
  | operand
  | badPrefix
  | alphabet
  | checksum
  | padExcess
  | padNonzero
  deriving DecidableEq, Repr

/-- The registers of the checksum unit CK (spec 10_state R20). -/
structure CkUnit where
  /-- `CK_ACC` (R22) -/
  acc : Acc
  /-- `CK_ERR` (R24) -/
  err : Code
  deriving DecidableEq, Repr

/-- The registers of the regrouper unit RG (spec 10_state R20). -/
structure RgUnit where
  /-- `RG_ACC` (R26) -/
  acc : BitVec 15
  /-- `RG_CNT` (R26) -/
  cnt : BitVec 4
  /-- `IN_W` (R27) -/
  inW : BitVec 4
  /-- `OUT_W` (R27) -/
  outW : BitVec 4
  /-- `PAD` (R27) -/
  pad : BitVec 1
  /-- `RG_ERR` (R29) -/
  err : Code
  deriving DecidableEq, Repr

/-- A response (spec 30_encoding R66). -/
structure Response where
  status : Code
  count : BitVec 4
  data : BitVec 64
  deriving DecidableEq, Repr

/-- The accepted command whose response the host has not taken (spec 10_state R34, 30_encoding R72, R73): its response, and the number of the
first edge after the one that accepted it. -/
structure InFlight where
  rsp : Response
  since : Nat
  deriving DecidableEq, Repr

/-- The values of the block's input pins at one rising edge of `clk` (spec 30_encoding R70). -/
structure PortIn where
  rst : Bool
  cmdValid : Bool
  cmdWord : Word
  rspReady : Bool
  deriving DecidableEq, Repr

/-- The values of the block's output pins at one rising edge of `clk` (spec 30_encoding R70). -/
structure PortOut where
  cmdReady : Bool
  rspValid : Bool
  rspStatus : Code
  rspCount : BitVec 4
  rspData : BitVec 64
  deriving DecidableEq, Repr

/-- Why the machine stops with a fault. -/
inductive Fault where
  /-- A command would answer with a status of 8 to 15, which the block never produces (spec 60_exceptions R130, 93 U4). Raised by `respond`.
  Safe: no run reaches it, since the latches never hold such a code. Log 7. -/
  | reservedStatus
  deriving DecidableEq, Repr

/-- Why the machine has no step. -/
inductive Refusal where
  /-- The command has no meaning in this model yet. Raised by `exec` only, in an arm that rejects by name (no arm does). Safe. -/
  | notModelled (mnemonic : String)
  /-- The host changed or dropped a word it had offered before the block accepted it (spec 30_encoding R71, 93 U6: the model has no step).
  Raised by `step`. Safe. Log 6. -/
  | handshakeViolation
  deriving DecidableEq, Repr

/-- The state. -/
structure State where
  /-- the checksum unit's registers -/
  ck : CkUnit
  /-- the regrouper unit's registers -/
  rg : RgUnit
  /-- the command in flight, if there is one (R34, R73) -/
  inFlight : Option InFlight
  /-- the word offered at the last edge and not accepted there, which the host must go on offering (R71) -/
  held : Option Word
  /-- the input pins at the coming edges, the next edge first; after the last one the host drives nothing (log 1) -/
  inputs : List PortIn
  /-- how many edges there have been: the counter the free values of `Config` are applied to (log 3) -/
  edge : Nat
  deriving DecidableEq, Repr

/-- The checksum unit after reset (spec 70_reset R151). -/
def ckReset : CkUnit := ⟨0x00000001#30, 0#4⟩

/-- The regrouper unit after reset (spec 70_reset R151). -/
def rgReset : RgUnit := ⟨0#15, 0#4, 5#4, 8#4, 0#1, 0#4⟩

/-- The machine right after reset: the registers of spec 70_reset R151, idle (R153), and a host that drives nothing (log 1, log 2). -/
def State.reset : State where
  ck := ckReset
  rg := rgReset
  inFlight := none
  held := none
  inputs := []
  edge := 0

end Sys2Proof.Machine
end

