-- ==== Sys2Proof/Machine/Flags.lean ====
section
/-! DEFINITION. The block has no flags (spec 10_state R33): the outcome of a command is a status code, and what persists of it is the
unit's error latch. This file holds the codes and the latch. -/

namespace Sys2Proof.Machine

/-- The number of a status (spec 60_exceptions R130). -/
def statusCode : Status → Code
  | .ok => 0#4
  | .illegal => 1#4
  | .operand => 2#4
  | .badPrefix => 3#4
  | .alphabet => 4#4
  | .checksum => 5#4
  | .padExcess => 6#4
  | .padNonzero => 7#4

/-- The codes 8 to 15 (spec 60_exceptions R130, 93 U4). -/
def reservedStatusCode (c : Code) : Bool := 8#4 ≤ c

/-- `latch_ck`, `latch_rg`: the first error wins (spec 10_state R25, R30). -/
def latch (err : Code) (st : Status) : Code :=
  if err = 0#4 then statusCode st else err

/-- A unit whose latch is nonzero blocks (spec 60_exceptions R140). -/
def latched (err : Code) : Bool := err != 0#4

end Sys2Proof.Machine
end

