-- ==== Sys2Proof/Syntax.lean ====
section
/-! DEFINITION. The commands of BPCA-1, one constructor per row of `opcode_table.json` (spec 30_encoding R56, R58), and the lines of its
assembler (R64, R65). Every operand has exactly the width of its field (R57), so a term of `Instr` cannot hold an operand that does not
fit; an assembler line holds plain numbers, and `WellFormed.lean` says which lines the assembler accepts. -/

namespace Sys2Proof

/-- The two checksum variants (spec 00_scope R2, 30_encoding R63). -/
inductive Variant where
  /-- classic, `VAR = 0` -/
  | bech32
  /-- alternate, `VAR = 1` -/
  | bech32m
  deriving DecidableEq, Repr

/-- The commands (spec 30_encoding R58). -/
inductive Instr where
  /-- `CK_INIT` (R83) -/
  | ckInit
  /-- `CK_HRPH ch` (R84) -/
  | ckHrph (ch : Byte)
  /-- `CK_HRPL ch` (R85) -/
  | ckHrpl (ch : Byte)
  /-- `CK_FOLD v` (R86) -/
  | ckFold (v : Sym)
  /-- `CK_FOLDC ch` (R87) -/
  | ckFoldc (ch : Byte)
  /-- `CK_CHECK var` (R88) -/
  | ckCheck (var : Variant)
  /-- `CK_READ` (R89) -/
  | ckRead
  /-- `RG_CFG iw, ow, pad` (R110) -/
  | rgCfg (iw ow : BitVec 4) (padf : BitVec 1)
  /-- `RG_CLR` (R111) -/
  | rgClr
  /-- `RG_PUSH sym` (R112) -/
  | rgPush (sym : Byte)
  /-- `RG_FIN` (R113) -/
  | rgFin
  /-- `RG_READ` (R114) -/
  | rgRead
  deriving DecidableEq, Repr

/-- The rows of the opcode map (spec 30_encoding R58), named as the commands are. -/
inductive Opcode where
  | ckInit | ckHrph | ckHrpl | ckFold | ckFoldc | ckCheck | ckRead
  | rgCfg | rgClr | rgPush | rgFin | rgRead
  deriving DecidableEq, Repr

/-- The row of the opcode map a command belongs to. -/
def Instr.opcode : Instr → Opcode
  | .ckInit => .ckInit
  | .ckHrph _ => .ckHrph
  | .ckHrpl _ => .ckHrpl
  | .ckFold _ => .ckFold
  | .ckFoldc _ => .ckFoldc
  | .ckCheck _ => .ckCheck
  | .ckRead => .ckRead
  | .rgCfg _ _ _ => .rgCfg
  | .rgClr => .rgClr
  | .rgPush _ => .rgPush
  | .rgFin => .rgFin
  | .rgRead => .rgRead

/-- The unit a command belongs to (spec 10_state R35). -/
inductive BlockUnit where
  | ck | rg
  deriving DecidableEq, Repr

/-- The unit of a command: the `CK_` commands and the `RG_` commands (spec 10_state R35). -/
def Instr.unit : Instr → BlockUnit
  | .ckInit | .ckHrph _ | .ckHrpl _ | .ckFold _ | .ckFoldc _ | .ckCheck _ | .ckRead => .ck
  | .rgCfg _ _ _ | .rgClr | .rgPush _ | .rgFin | .rgRead => .rg

/-- Why a word is no command (spec 30_encoding R60). The block answers ILLEGAL in both cases. -/
inductive IllegalWord where
  /-- `OP` is 0x0, 0xD, 0xE or 0xF -/
  | reservedOpcode
  /-- a reserved bit of a defined `OP` is set -/
  | reservedBits
  deriving DecidableEq, Repr

/-- The two outcomes of decoding (spec 30_encoding R59). -/
inductive Decoded where
  | command (i : Instr)
  | illegal (why : IllegalWord)
  deriving DecidableEq, Repr

/-- A line of assembler: a mnemonic with its operands as plain numbers (a character as its code), or a pseudo-instruction
(spec 30_encoding R64, R65). -/
inductive AsmLine where
  | ckInit
  | ckHrph (ch : Nat)
  | ckHrpl (ch : Nat)
  | ckFold (v : Nat)
  | ckFoldc (ch : Nat)
  | ckCheck (var : Nat)
  | ckRead
  | rgCfg (iw ow pad : Nat)
  | rgClr
  | rgPush (sym : Nat)
  | rgFin
  | rgRead
  /-- `CK_SEP` -/
  | ckSep
  /-- `CK_HRP "s"` -/
  | ckHrp (s : List Nat)
  /-- `CK_DATA "d"` -/
  | ckData (d : List Nat)
  /-- `RG_DEC58` -/
  | rgDec58
  /-- `RG_ENC85` -/
  | rgEnc85
  deriving DecidableEq, Repr

end Sys2Proof
end

