-- ==== Sys2Proof/WellFormed.lean ====
section
/-! DEFINITION. Well-formedness. A term of `Instr` is well formed by its type (each operand has the width of its field, spec 30_encoding
R57: the illegal operand VALUES of RG_CFG and RG_PUSH are decodable and are answered by the block). What can be ill formed is an assembler
line: R64 gives the range of every operand. -/

namespace Sys2Proof

/-- The operand ranges of R64's table. -/
def asmWellFormed : AsmLine → Bool
  | .ckHrph ch | .ckHrpl ch | .ckFoldc ch => ch < 256
  | .ckFold v => v < 32
  | .ckCheck var => var < 2
  | .rgCfg iw ow pad => iw < 16 && ow < 16 && pad < 2
  | .rgPush sym => sym < 256
  | .ckHrp s => s.all (· < 256)
  | .ckData d => d.all (· < 256)
  | .ckInit | .ckRead | .rgClr | .rgFin | .rgRead | .ckSep | .rgDec58 | .rgEnc85 => true

end Sys2Proof
end

