-- ==== Sys2Proof/Decode.lean ====
section
/-! DEFINITION. The decoder, from the opcode map's masks and match values (spec 30_encoding R58), total on all 65,536 words (R59); the
encoder, from the words of R64; the expansion of an assembler line (R64, R65). -/

namespace Sys2Proof

/-- The `match` column of R58. -/
def opcodeMatch : Opcode → Word
  | .ckInit => 0x1000#16
  | .ckHrph => 0x2000#16
  | .ckHrpl => 0x3000#16
  | .ckFold => 0x4000#16
  | .ckFoldc => 0x5000#16
  | .ckCheck => 0x6000#16
  | .ckRead => 0x7000#16
  | .rgCfg => 0x8000#16
  | .rgClr => 0x9000#16
  | .rgPush => 0xA000#16
  | .rgFin => 0xB000#16
  | .rgRead => 0xC000#16

/-- The `mask` column of R58. -/
def opcodeMask : Opcode → Word
  | .ckInit => 0xFFFF#16
  | .ckHrph => 0xFF00#16
  | .ckHrpl => 0xFF00#16
  | .ckFold => 0xFFE0#16
  | .ckFoldc => 0xFF00#16
  | .ckCheck => 0xFFFE#16
  | .ckRead => 0xFFFF#16
  | .rgCfg => 0xFE00#16
  | .rgClr => 0xFFFF#16
  | .rgPush => 0xFF00#16
  | .rgFin => 0xFFFF#16
  | .rgRead => 0xFFFF#16

/-- The defined rows of R58, in its order. -/
def opcodeRows : List Opcode :=
  [.ckInit, .ckHrph, .ckHrpl, .ckFold, .ckFoldc, .ckCheck, .ckRead, .rgCfg, .rgClr, .rgPush, .rgFin, .rgRead]

/-- A word is the command of a row exactly when `(w & mask) = match` (R58). -/
def matchesRow (w : Word) (o : Opcode) : Bool :=
  w &&& opcodeMask o == opcodeMatch o

/-- `OP = w[15:12]` (R55). -/
def fieldOp (w : Word) : BitVec 4 := w.extractLsb' 12 4

/-- `CH = w[7:0]` (R56, sub-format C). -/
def fieldCh (w : Word) : Byte := w.extractLsb' 0 8

/-- `V = w[4:0]` (R56, sub-format V). -/
def fieldV (w : Word) : Sym := w.extractLsb' 0 5

/-- `VAR = w[0]`: 0 selects BECH32, 1 selects BECH32M (R56, sub-format K; R63). -/
def fieldVar (w : Word) : Variant := if w.getLsbD 0 then .bech32m else .bech32

/-- `IW = w[3:0]` (R56, sub-format G). -/
def fieldIw (w : Word) : BitVec 4 := w.extractLsb' 0 4

/-- `OW = w[7:4]` (R56, sub-format G). -/
def fieldOw (w : Word) : BitVec 4 := w.extractLsb' 4 4

/-- `PADF = w[8]` (R56, sub-format G). -/
def fieldPadf (w : Word) : BitVec 1 := w.extractLsb' 8 1

/-- `SYM = w[7:0]` (R56, sub-format S). -/
def fieldSym (w : Word) : Byte := w.extractLsb' 0 8

/-- The command of a row with the operand fields of the word (R56, R59). -/
def instrOf : Opcode → Word → Instr
  | .ckInit, _ => .ckInit
  | .ckHrph, w => .ckHrph (fieldCh w)
  | .ckHrpl, w => .ckHrpl (fieldCh w)
  | .ckFold, w => .ckFold (fieldV w)
  | .ckFoldc, w => .ckFoldc (fieldCh w)
  | .ckCheck, w => .ckCheck (fieldVar w)
  | .ckRead, _ => .ckRead
  | .rgCfg, w => .rgCfg (fieldIw w) (fieldOw w) (fieldPadf w)
  | .rgClr, _ => .rgClr
  | .rgPush, w => .rgPush (fieldSym w)
  | .rgFin, _ => .rgFin
  | .rgRead, _ => .rgRead

/-- Which of R60's two kinds of illegal word this is. -/
def illegalKind (w : Word) : IllegalWord :=
  if fieldOp w ∈ [0x0#4, 0xD#4, 0xE#4, 0xF#4] then .reservedOpcode else .reservedBits

/-- Decoding (R59): the one row the word matches, or ILLEGAL. -/
def decode (w : Word) : Decoded :=
  match opcodeRows.find? (matchesRow w) with
  | some o => .command (instrOf o w)
  | none => .illegal (illegalKind w)

/-- The value of `VAR` that selects a variant (R63). -/
def variantBit : Variant → BitVec 1
  | .bech32 => 0#1
  | .bech32m => 1#1

/-- The word of a command, from the `word` column of R64. -/
def encode : Instr → Word
  | .ckInit => 0x1000#16
  | .ckHrph ch => 0x2000#16 ||| ch.setWidth 16
  | .ckHrpl ch => 0x3000#16 ||| ch.setWidth 16
  | .ckFold v => 0x4000#16 ||| v.setWidth 16
  | .ckFoldc ch => 0x5000#16 ||| ch.setWidth 16
  | .ckCheck var => 0x6000#16 ||| (variantBit var).setWidth 16
  | .ckRead => 0x7000#16
  | .rgCfg iw ow padf => 0x8000#16 ||| padf.setWidth 16 <<< 8 ||| ow.setWidth 16 <<< 4 ||| iw.setWidth 16
  | .rgClr => 0x9000#16
  | .rgPush sym => 0xA000#16 ||| sym.setWidth 16
  | .rgFin => 0xB000#16
  | .rgRead => 0xC000#16

/-- `CK_HRP "s"` (R65): CK_INIT, the high parts, the separator step, the low parts. -/
def hrpSequence (s : List Byte) : List Instr :=
  .ckInit :: s.map .ckHrph ++ .ckFold 0 :: s.map .ckHrpl

/-- `CK_DATA "d"` (R65). -/
def dataSequence (d : List Byte) : List Instr :=
  d.map .ckFoldc

/-- The character codes of an assembler string as bytes. -/
def asmBytes (s : List Nat) : List Byte :=
  s.map (BitVec.ofNat 8)

/-- The commands of an accepted line (R64, R65). -/
def asmExpand : AsmLine → List Instr
  | .ckInit => [.ckInit]
  | .ckHrph ch => [.ckHrph (BitVec.ofNat 8 ch)]
  | .ckHrpl ch => [.ckHrpl (BitVec.ofNat 8 ch)]
  | .ckFold v => [.ckFold (BitVec.ofNat 5 v)]
  | .ckFoldc ch => [.ckFoldc (BitVec.ofNat 8 ch)]
  | .ckCheck var => [.ckCheck (if var = 0 then .bech32 else .bech32m)]
  | .ckRead => [.ckRead]
  | .rgCfg iw ow pad => [.rgCfg (BitVec.ofNat 4 iw) (BitVec.ofNat 4 ow) (BitVec.ofNat 1 pad)]
  | .rgClr => [.rgClr]
  | .rgPush sym => [.rgPush (BitVec.ofNat 8 sym)]
  | .rgFin => [.rgFin]
  | .rgRead => [.rgRead]
  | .ckSep => [.ckFold 0]
  | .ckHrp s => hrpSequence (asmBytes s)
  | .ckData d => dataSequence (asmBytes d)
  | .rgDec58 => [.rgCfg 5 8 0]
  | .rgEnc85 => [.rgCfg 8 5 1]

/-- The words an assembler writes for a line; none where it refuses an operand outside its range (R64). -/
def assemble (l : AsmLine) : Option (List Word) :=
  if asmWellFormed l then some ((asmExpand l).map encode) else none

/-- The command the decoder reads from a word given as the opcode table numbers it. A command is one parallel 16-bit word (R43, R55), so
the table's bits are the word's bits; a number that does not fit `nbits` or 16 bits is no command word. -/
def decodeTableWord (nbits w : Nat) : Option Instr :=
  if w < 2 ^ nbits ∧ w < 2 ^ 16 then
    match decode (BitVec.ofNat 16 w) with
    | .command i => some i
    | .illegal _ => none
  else none

end Sys2Proof
end

