-- ==== Sys2Proof/Machine/Operands.lean ====
section
/-! DEFINITION. The constant tables (spec 10_state R31) and the checks of operand values (30_encoding R57; 40_checksum R75, R78, R84;
41_regrouper R110, R112). -/

namespace Sys2Proof.Machine

/-- `SEED` (spec 00_scope R7). -/
def ckSeed : Acc := 0x00000001#30

/-- `GEN[0..4]` (spec 00_scope R7, 40_checksum R76). -/
def gen : Nat → Acc
  | 0 => 0x3b6a57b2#30
  | 1 => 0x26508e6d#30
  | 2 => 0x1ea119fa#30
  | 3 => 0x3d4233dd#30
  | 4 => 0x2a1462b3#30
  | _ => 0#30

/-- `TARGET` (spec 40_checksum R78). -/
def target : Variant → Acc
  | .bech32 => 0x00000001#30
  | .bech32m => 0x2bc830a3#30

/-- The alphabet's character codes, the symbol of value 0 first (spec 40_checksum R75; the codes are PRESUMED there, log 12). -/
def alphabet : List Byte :=
  [0x71#8, 0x70#8, 0x7a#8, 0x72#8, 0x79#8, 0x39#8, 0x78#8, 0x38#8] ++
  [0x67#8, 0x66#8, 0x32#8, 0x74#8, 0x76#8, 0x64#8, 0x77#8, 0x30#8] ++
  [0x73#8, 0x33#8, 0x6a#8, 0x6e#8, 0x35#8, 0x34#8, 0x6b#8, 0x68#8] ++
  [0x63#8, 0x65#8, 0x36#8, 0x6d#8, 0x75#8, 0x61#8, 0x37#8, 0x6c#8]

/-- `ALPHA_DEC(ch)`: the character's place in the alphabet, `none` for every other code (spec 40_checksum R75). -/
def alphaDec (ch : Byte) : Option Sym :=
  (alphabet.findIdx? (· == ch)).map (BitVec.ofNat 5)

/-- `HRP_MIN = 33`, `HRP_MAX = 126` (spec 00_scope R7, 40_checksum R84). -/
def prefixChar (ch : Byte) : Bool := 33 ≤ ch.toNat && ch.toNat ≤ 126

/-- `CH >> 5`, the symbol the first pass folds (spec 40_checksum R79, R84). -/
def charHigh (ch : Byte) : Sym := (ch >>> 5).setWidth 5

/-- `CH & 0x1f`, the symbol the second pass folds (spec 40_checksum R79, R85). -/
def charLow (ch : Byte) : Sym := (ch &&& 0x1f#8).setWidth 5

/-- The legal widths, `RG_W_MIN = 1` to `RG_W_MAX = 8` (spec 00_scope R7, 41_regrouper R110). -/
def legalWidth (w : BitVec 4) : Bool := 1 ≤ w.toNat && w.toNat ≤ 8

/-- `SYM < 2^IN_W` (spec 41_regrouper R112). -/
def symbolFits (inW : BitVec 4) (sym : Byte) : Bool := sym.toNat < 2 ^ inW.toNat

/-- `mask(n) = 2^n - 1` (spec 00_scope R10). -/
def mask (n : Nat) : Nat := 2 ^ n - 1

end Sys2Proof.Machine
end

