-- ==== Sys2Proof/Machine/Ops.lean ====
section
/-! DEFINITION. The shared operations: building and issuing a response (spec 30_encoding R66 to R69), raising an error and blocking by a
latched one (60_exceptions R131, R140), running a command on its unit (10_state R35), and what happens at an edge of the clock when no
command is accepted (30_encoding R70 to R73; 70_reset R150, R151). -/

namespace Sys2Proof.Machine

/-! ### Responses -/

/-- An OK response without groups (R67). -/
def okResponse (data : BitVec 64) : Response := ⟨statusCode .ok, 0#4, data⟩

/-- `zext_64` (spec 00_scope R10). -/
def zext64 {n : Nat} (v : BitVec n) : BitVec 64 := v.setWidth 64

/-- The groups of one command, the first in the lowest byte (R68). -/
def packGroups : List Byte → BitVec 64
  | [] => 0#64
  | g :: gs => zext64 g ||| packGroups gs <<< 8

/-- An OK response with groups (R67, R68). -/
def groupsResponse (gs : List Byte) : Response :=
  ⟨statusCode .ok, BitVec.ofNat 4 gs.length, packGroups gs⟩

/-- The response of an error, `{code, 0, 0}` (spec 60_exceptions R131). -/
def codeResponse (code : Code) : Response := ⟨code, 0#4, 0#64⟩

/-- The block produces the response of the command it has just executed (R66); a reserved status stops the model (93 U4, log 7). -/
def respond (r : Response) (s : State) : Host.Outcome State Fault Refusal :=
  if reservedStatusCode r.status then .fault .reservedStatus
  else .next { s with inFlight := some ⟨r, s.edge⟩ }

/-! ### Errors -/

/-- A CK command raises `st`: the latch takes it if it is free, nothing else is written (spec 10_state R25, 60_exceptions R131). -/
def raiseCk (st : Status) (u : CkUnit) : CkUnit × Response :=
  ({ u with err := latch u.err st }, codeResponse (statusCode st))

/-- An RG command raises `st` (spec 10_state R30, 60_exceptions R131). -/
def raiseRg (st : Status) (u : RgUnit) : RgUnit × Response :=
  ({ u with err := latch u.err st }, codeResponse (statusCode st))

/-- A blocked CK command: with a latched error it answers the latch and writes nothing (spec 60_exceptions R140). -/
def blockedCk (f : CkUnit → CkUnit × Response) (u : CkUnit) : CkUnit × Response :=
  if latched u.err then (u, codeResponse u.err) else f u

/-- A blocked RG command (spec 60_exceptions R140). -/
def blockedRg (f : RgUnit → RgUnit × Response) (u : RgUnit) : RgUnit × Response :=
  if latched u.err then (u, codeResponse u.err) else f u

/-- A word that is no command: `{ILLEGAL, 0, 0}`, no register written, whatever the latches hold (spec 60_exceptions R132). -/
def raiseIllegal (s : State) : Host.Outcome State Fault Refusal :=
  respond (codeResponse (statusCode .illegal)) s

/-! ### Running a command on its unit -/

/-- A CK command reads and writes the CK unit only (spec 10_state R35); all its writes take effect together (20_memory R46). -/
def onCk (f : CkUnit → CkUnit × Response) (s : State) : Host.Outcome State Fault Refusal :=
  respond (f s.ck).2 { s with ck := (f s.ck).1 }

/-- An RG command reads and writes the RG unit only (spec 10_state R35). -/
def onRg (f : RgUnit → RgUnit × Response) (s : State) : Host.Outcome State Fault Refusal :=
  respond (f s.rg).2 { s with rg := (f s.rg).1 }

/-! ### The ports at one edge -/

/-- The pins of a host that drives nothing. -/
def idlePins : PortIn := ⟨false, false, 0#16, false⟩

/-- The input pins at the coming edge; after the last listed edge the host drives nothing (log 1). -/
def pins (s : State) : PortIn := s.inputs.headD idlePins

/-- The edge is over: the next pins come up. -/
def advance (s : State) : State :=
  { s with inputs := s.inputs.tail, edge := s.edge + 1 }

/-- The word an offer leaves for the host to hold when it is not accepted (R71). -/
def unaccepted (p : PortIn) : Option Word :=
  if p.cmdValid then some p.cmdWord else none

/-- The host broke R71: it had offered a word that was not accepted, and does not offer the same word now. -/
def handshakeBroken (p : PortIn) (s : State) : Bool :=
  s.held.isSome && unaccepted p != s.held

/-- The block offers the response in flight: it does so from `CMD_LATENCY = 1 + extraLatency` edges after the accepting one on
(R72, 00_scope R8). DESIGN CHOICE (log 3): the latency is a function of the number of the edge alone, where 70_reset R160 leaves open whether
it depends on the command or its operands. -/
def offered (s : State) : Bool :=
  match s.inFlight with
  | some f => f.since + Config.extraLatency f.since ≤ s.edge
  | none => false

/-- The output pins at the coming edge (R70): in reset neither `cmd_ready` nor `rsp_valid` (70_reset R150); a command in flight keeps
`cmd_ready = 0` (R73); an idle block is ready (log 4); without `rsp_valid` the response pins have free values (93 U3, log 8). -/
def portOut (s : State) : PortOut :=
  let undriven (valid : Bool) : PortOut :=
    ⟨valid, false, Config.undrivenStatus s.edge, Config.undrivenCount s.edge, Config.undrivenData s.edge⟩
  if (pins s).rst then undriven false
  else
    match s.inFlight with
    | none => undriven true
    | some f => if offered s then ⟨false, true, f.rsp.status, f.rsp.count, f.rsp.data⟩ else undriven false

/-- An edge with `rst = 1`: every register takes its reset value, and a command in flight is discarded with its response
(70_reset R150, R151). -/
def resetEdge (s : State) : State :=
  { advance s with ck := ckReset, rg := rgReset, inFlight := none, held := unaccepted (pins s) }

/-- An edge with a command in flight: no command is accepted (R73); the response is taken when it is offered and the host is ready, and
held unchanged otherwise (R72). -/
def inFlightEdge (s : State) : State :=
  { advance s with
    inFlight := if offered s && (pins s).rspReady then none else s.inFlight
    held := unaccepted (pins s) }

/-- The state in which a command is executed, or in which an idle block stays idle: the offer is no longer pending. -/
def idleEdge (s : State) : State :=
  { advance s with held := none }

end Sys2Proof.Machine
end

