-- ==== Sys2Proof/Machine/Checksum.lean ====
section
/-! DEFINITION. The checksum unit CK and its seven commands (spec 40_checksum). -/

namespace Sys2Proof.Machine

/-- The polymod step (R76). -/
def polymodStep (c : Acc) : Acc :=
  let b : BitVec 5 := (c >>> 25).setWidth 5
  (List.range 5).foldl (fun r i => if b.getLsbD i then r ^^^ gen i else r) ((c &&& 0x1ffffff#30) <<< 5)

/-- Folding a value: step, then XOR (R77). -/
def foldSymbol (c : Acc) (v : Sym) : Acc :=
  polymodStep c ^^^ v.setWidth 30

/-- Fold `v` and answer the new `CK_ACC` (R84, R85, R86). -/
def foldAndShow (v : Sym) (u : CkUnit) : CkUnit × Response :=
  ({ u with acc := foldSymbol u.acc v }, okResponse (zext64 (foldSymbol u.acc v)))

/-- Fold one part of a prefix character, after the range check both passes make (R84, R85). -/
def foldPrefixChar (part : Byte → Sym) (ch : Byte) (u : CkUnit) : CkUnit × Response :=
  if prefixChar ch then foldAndShow (part ch) u else raiseCk .badPrefix u

/-- Decode a data character and fold its value, answering both (R87). -/
def foldDataChar (ch : Byte) (u : CkUnit) : CkUnit × Response :=
  match alphaDec ch with
  | none => raiseCk .alphabet u
  | some v =>
    ({ u with acc := foldSymbol u.acc v },
      okResponse (zext64 v <<< 32 ||| zext64 (foldSymbol u.acc v)))

/-- Compare `CK_ACC` with the variant's target; a mismatch does not latch and keeps the value in the response (R88; 60_exceptions R136). -/
def checkTarget (var : Variant) (u : CkUnit) : CkUnit × Response :=
  (u, ⟨if u.acc = target var then statusCode .ok else statusCode .checksum, 0#4, zext64 u.acc⟩)

/-- Seed the accumulator and clear the latch (R83). -/
def startChecksum (_ : CkUnit) : CkUnit × Response :=
  (⟨ckSeed, 0#4⟩, okResponse (zext64 ckSeed))

/-- Show the CK registers (R89). -/
def showCk (u : CkUnit) : CkUnit × Response :=
  (u, okResponse (zext64 u.err <<< 32 ||| zext64 u.acc))

/-- `CK_INIT` (R83). -/
def execCkInit (s : State) : Host.Outcome State Fault Refusal :=
  onCk startChecksum s

/-- `CK_HRPH ch` (R84). -/
def execCkHrph (ch : Byte) (s : State) : Host.Outcome State Fault Refusal :=
  onCk (blockedCk (foldPrefixChar charHigh ch)) s

/-- `CK_HRPL ch` (R85). -/
def execCkHrpl (ch : Byte) (s : State) : Host.Outcome State Fault Refusal :=
  onCk (blockedCk (foldPrefixChar charLow ch)) s

/-- `CK_FOLD v` (R86). -/
def execCkFold (v : Sym) (s : State) : Host.Outcome State Fault Refusal :=
  onCk (blockedCk (foldAndShow v)) s

/-- `CK_FOLDC ch` (R87). -/
def execCkFoldc (ch : Byte) (s : State) : Host.Outcome State Fault Refusal :=
  onCk (blockedCk (foldDataChar ch)) s

/-- `CK_CHECK var` (R88). -/
def execCkCheck (var : Variant) (s : State) : Host.Outcome State Fault Refusal :=
  onCk (blockedCk (checkTarget var)) s

/-- `CK_READ` (R89): never blocked, writes nothing. -/
def execCkRead (s : State) : Host.Outcome State Fault Refusal :=
  onCk showCk s

end Sys2Proof.Machine
end

