-- ==== Sys2Proof/Machine/Regroup.lean ====
section
/-! DEFINITION. The regrouper unit RG and its five commands (spec 41_regrouper). The conversion is computed in exact numbers and narrowed
to the registers' widths at the end (00_scope R10). -/

namespace Sys2Proof.Machine

/-- R107's loop: while at least `outW` of the `n` buffered bits of `a` remain, emit the top `outW` of them. The first argument bounds the
number of turns. Answers the groups in order and the number of bits left. -/
def emitGroups (a outW : Nat) : Nat → Nat → List Byte × Nat
  | 0, n => ([], n)
  | turns + 1, n =>
    if outW ≤ n then
      let rest := emitGroups a outW turns (n - outW)
      (BitVec.ofNat 8 ((a >>> (n - outW)) &&& mask outW) :: rest.1, rest.2)
    else ([], n)

/-- `consume(acc, cnt, x)` (R107): the new buffer, its bit count, and the groups emitted. -/
def consume (inW outW acc cnt x : Nat) : Nat × Nat × List Byte :=
  let a := acc <<< inW ||| x
  let e := emitGroups a outW (cnt + inW) (cnt + inW)
  (a &&& mask e.2, e.2, e.1)

/-- The left-aligned leftover, `(RG_ACC << (OUT_W - RG_CNT)) & mask(OUT_W)` (R108). -/
def leftAligned (u : RgUnit) : Byte :=
  BitVec.ofNat 8 ((u.acc.toNat <<< (u.outW.toNat - u.cnt.toNat)) &&& mask u.outW.toNat)

/-- Configure and start a new conversion, or reject an illegal width (R110; 10_state R28). -/
def configure (iw ow : BitVec 4) (padf : BitVec 1) (u : RgUnit) : RgUnit × Response :=
  if legalWidth iw && legalWidth ow then (⟨0#15, 0#4, iw, ow, padf, 0#4⟩, okResponse 0#64)
  else raiseRg .operand u

/-- Consume one input symbol and emit every complete group, or reject a symbol wider than `IN_W` (R112). -/
def pushSymbol (sym : Byte) (u : RgUnit) : RgUnit × Response :=
  if symbolFits u.inW sym then
    let c := consume u.inW.toNat u.outW.toNat u.acc.toNat u.cnt.toNat sym.toNat
    ({ u with acc := BitVec.ofNat 15 c.1, cnt := BitVec.ofNat 4 c.2.1 }, groupsResponse c.2.2)
  else raiseRg .operand u

/-- The unit with an empty buffer (R113). -/
def emptyBuffer (u : RgUnit) : RgUnit := { u with acc := 0#15, cnt := 0#4 }

/-- End of input (R113): with `PAD = 1` the leftover is emitted (R108); with `PAD = 0` it must be shorter than a symbol, then zero (R109). -/
def finishInput (u : RgUnit) : RgUnit × Response :=
  if u.pad = 1#1 then
    (emptyBuffer u, groupsResponse (if u.cnt = 0#4 then [] else [leftAligned u]))
  else if u.inW ≤ u.cnt then raiseRg .padExcess u
  else if u.acc ≠ 0#15 then raiseRg .padNonzero u
  else (emptyBuffer u, okResponse 0#64)

/-- The register dump of RG_READ (R114). -/
def rgDump (u : RgUnit) : BitVec 64 :=
  zext64 u.err <<< 36 ||| zext64 u.pad <<< 32 ||| zext64 u.outW <<< 28 ||| zext64 u.inW <<< 24 |||
    zext64 u.cnt <<< 16 ||| zext64 u.acc

/-- Drop the buffer and the latched error, keep the configuration (R111). -/
def clearRg (u : RgUnit) : RgUnit × Response :=
  ({ emptyBuffer u with err := 0#4 }, okResponse 0#64)

/-- Show the RG registers (R114). -/
def showRg (u : RgUnit) : RgUnit × Response :=
  (u, okResponse (rgDump u))

/-- `RG_CFG iw, ow, pad` (R110). -/
def execRgCfg (iw ow : BitVec 4) (padf : BitVec 1) (s : State) : Host.Outcome State Fault Refusal :=
  onRg (configure iw ow padf) s

/-- `RG_CLR` (R111). -/
def execRgClr (s : State) : Host.Outcome State Fault Refusal :=
  onRg clearRg s

/-- `RG_PUSH sym` (R112). -/
def execRgPush (sym : Byte) (s : State) : Host.Outcome State Fault Refusal :=
  onRg (blockedRg (pushSymbol sym)) s

/-- `RG_FIN` (R113). -/
def execRgFin (s : State) : Host.Outcome State Fault Refusal :=
  onRg (blockedRg finishInput) s

/-- `RG_READ` (R114): never blocked, writes nothing. -/
def execRgRead (s : State) : Host.Outcome State Fault Refusal :=
  onRg showRg s

end Sys2Proof.Machine
end

