-- ==== Sys2Proof/Machine/Dispatch.lean ====
section
/-! DEFINITION. One arm per command, each one call of its meaning. -/

namespace Sys2Proof.Machine

def exec (i : Instr) (s : State) : Host.Outcome State Fault Refusal :=
  match i with
  | .ckInit => Sys2Proof.Machine.execCkInit s
  | .ckHrph ch => Sys2Proof.Machine.execCkHrph ch s
  | .ckHrpl ch => Sys2Proof.Machine.execCkHrpl ch s
  | .ckFold v => Sys2Proof.Machine.execCkFold v s
  | .ckFoldc ch => Sys2Proof.Machine.execCkFoldc ch s
  | .ckCheck var => Sys2Proof.Machine.execCkCheck var s
  | .ckRead => Sys2Proof.Machine.execCkRead s
  | .rgCfg iw ow padf => Sys2Proof.Machine.execRgCfg iw ow padf s
  | .rgClr => Sys2Proof.Machine.execRgClr s
  | .rgPush sym => Sys2Proof.Machine.execRgPush sym s
  | .rgFin => Sys2Proof.Machine.execRgFin s
  | .rgRead => Sys2Proof.Machine.execRgRead s

end Sys2Proof.Machine
end

