-- ==== Sys2Proof/Machine/Issue.lean ====
section
/-! DEFINITION. A command word is accepted and executed (spec 30_encoding R59, R71), and the block as a sequence of whole transactions,
command and response (20_memory R48; 10_state R36; 70_reset R161). -/

namespace Sys2Proof.Machine

/-- The block accepts the word `w`: it executes the command the word is, or raises ILLEGAL (R59). -/
def acceptWord (w : Word) (s : State) : Host.Outcome State Fault Refusal :=
  match decode w with
  | .command i => exec i s
  | .illegal _ => raiseIllegal s

/-- One command word and its response, R36's `step : State -> Word16 -> State x Response`: the word is accepted and the host takes the
response. `none` only where the model stops. -/
def transact (w : Word) (s : State) : Option (State × Response) :=
  match acceptWord w s with
  | .next t => t.inFlight.map fun f => ({ t with inFlight := none }, f.rsp)
  | .fault _ => none
  | .refused _ => none

/-- A finite sequence of command words, each with its response, in order (spec 20_memory R48, 70_reset R161). -/
def transactAll : List Word → State → Option (State × List Response)
  | [], s => some (s, [])
  | w :: ws, s =>
    match transact w s with
    | none => none
    | some (t, r) =>
      match transactAll ws t with
      | none => none
      | some (u, rs) => some (u, r :: rs)

end Sys2Proof.Machine
end

