-- ==== Sys2Proof/Machine/Step.lean ====
section
/-! DEFINITION. One step is one rising edge of `clk` (spec 30_encoding R70 to R73; 70_reset R150). -/

namespace Sys2Proof.Machine

/-- One rising edge of `clk`, in this order: reset; a broken handshake, for which the model has no step (93 U6); a command in flight; a word
offered to an idle block, which accepts and executes it; nothing. -/
def step (s : State) : Host.Outcome State Fault Refusal :=
  if (pins s).rst then .next (resetEdge s)
  else if handshakeBroken (pins s) s then .refused .handshakeViolation
  else if s.inFlight.isSome then .next (inFlightEdge s)
  else if (pins s).cmdValid then acceptWord (pins s).cmdWord (idleEdge s)
  else .next (idleEdge s)

/-- `s` with the host offering the word at the next edge to an idle block. The block fetches nothing (R32): a command comes from the port, so
this is the offer, with no command in flight and no other word held (log 2). -/
def State.withFetchWord (s : State) (nbits w : Nat) : State :=
  { s with
    inputs := ⟨false, true, BitVec.ofNat 16 (w % 2 ^ nbits), false⟩ :: s.inputs
    inFlight := none
    held := none }

end Sys2Proof.Machine
end

