-- ==== Sys2Proof/Machine/Reference.lean ====
section
/-! DEFINITION. What the block is claimed to compute, written from the source document's functions and not from the block's commands (spec
40_checksum R79, R91; 41_regrouper R105, R106, R108, R109), and the command sequences that compute it (30_encoding R65; 70_reset R163,
R168), and what an observer of the ports sees of a run (30_encoding R71, R72). Statements compare them. -/

namespace Sys2Proof.Machine

/-- `polymod(x1 .. xk) = fold(..fold(fold(1, x1), x2).., xk)` (R91). -/
def polymod (xs : List Sym) : Acc :=
  xs.foldl foldSymbol 1#30

/-- `hrp_seed(s1 .. sn)` (R79). -/
def hrpSeed (s : List Byte) : Acc :=
  let afterHigh := s.foldl (fun c ch => foldSymbol c (charHigh ch)) 1#30
  s.foldl (fun c ch => foldSymbol c (charLow ch)) (foldSymbol afterHigh 0)

/-- DOC0's extraction (R105, R106): from a buffer that keeps every bit shifted in, of which `n` are not yet emitted, the groups
`(buffer >> (count - outWidth)) & mask(outWidth)` and the count left. -/
def doc0Extract (inOrder : Nat) (outWidth : Nat) : Nat → Nat → List Nat × Nat
  | 0, n => ([], n)
  | turns + 1, n =>
    if n < outWidth then ([], n)
    else
      let rest := doc0Extract inOrder outWidth turns (n - outWidth)
      (inOrder / 2 ^ (n - outWidth) % 2 ^ outWidth :: rest.1, rest.2)

/-- DOC0's conversion of a sequence of symbols (R105): groups, the whole buffer, and the count of bits not emitted. The buffer is never
masked (91 N23). -/
def doc0Convert (inWidth outWidth : Nat) (buffer count : Nat) : List Nat → List Nat × Nat × Nat
  | [] => ([], buffer, count)
  | x :: xs =>
    let shifted := buffer * 2 ^ inWidth + x
    let e := doc0Extract shifted outWidth (count + inWidth) (count + inWidth)
    let rest := doc0Convert inWidth outWidth shifted e.2 xs
    (e.1 ++ rest.1, rest.2)

/-- How DOC0's conversion ends (R108, R109). -/
inductive Doc0End where
  /-- success, with the groups the end adds -/
  | done (groups : List Nat)
  | excessPadding
  | nonzeroPadding
  deriving DecidableEq, Repr

/-- DOC0's end of input (R108, R109): the leftover is the low `count` bits of the buffer, left-aligned in a group. -/
def doc0Finish (inWidth outWidth : Nat) (padTrailing : Bool) (buffer count : Nat) : Doc0End :=
  let leftover := buffer * 2 ^ (outWidth - count) % 2 ^ outWidth
  if padTrailing then .done (if count = 0 then [] else [leftover])
  else if inWidth ≤ count then .excessPadding
  else if leftover ≠ 0 then .nonzeroPadding
  else .done []

/-- The groups a response carries: its `count` lowest bytes, the lowest first (30_encoding R68). -/
def groupsOf (r : Response) : List Byte :=
  (List.range r.count.toNat).map fun k => r.data.extractLsb' (8 * k) 8

/-- All groups of a run, concatenated over its responses in order (R116, 70_reset R168). -/
def groupsOfAll (rs : List Response) : List Byte :=
  rs.flatMap groupsOf

/-- The words of a checksum, from CK_INIT to CK_CHECK (70_reset R163). -/
def checksumWords (s d : List Byte) (var : Variant) : List Word :=
  ((hrpSequence s ++ dataSequence d) ++ [Instr.ckCheck var]).map encode

/-- The words that push a sequence of symbols (R116). -/
def pushWords (xs : List Byte) : List Word :=
  xs.map fun x => encode (.rgPush x)

/-- The words of a whole conversion under a new configuration: RG_CFG, the symbols, RG_FIN (70_reset R168). -/
def regroupWords (iw ow : BitVec 4) (padf : BitVec 1) (xs : List Byte) : List Word :=
  encode (.rgCfg iw ow padf) :: (pushWords xs ++ [encode .rgFin])

/-- The number whose digits are the given groups of `width` bits, the first the most significant ("MSB-first", R107). -/
def bitsValue (width : Nat) (gs : List Nat) : Nat :=
  gs.foldl (fun v g => v * 2 ^ width + g) 0

/-- The block accepts a word at the coming edge (30_encoding R71). -/
def acceptsAt (s : State) : Bool := (portOut s).cmdReady && (pins s).cmdValid

/-- The host takes a response at the coming edge (30_encoding R72). -/
def takesAt (s : State) : Bool := (portOut s).rspValid && (pins s).rspReady

/-- The words accepted in the first `k` edges, in order. -/
def acceptedWords : Nat → State → List Word
  | 0, _ => []
  | k + 1, s =>
    match step s with
    | .next t => (if acceptsAt s then [(pins s).cmdWord] else []) ++ acceptedWords k t
    | .fault _ => []
    | .refused _ => []

/-- The responses taken in the first `k` edges, in order, as the response pins show them. -/
def takenResponses : Nat → State → List Response
  | 0, _ => []
  | k + 1, s =>
    match step s with
    | .next t =>
      (if takesAt s then [⟨(portOut s).rspStatus, (portOut s).rspCount, (portOut s).rspData⟩] else []) ++
        takenResponses k t
    | .fault _ => []
    | .refused _ => []

end Sys2Proof.Machine
end

