-- ==== Sys2Proof/Safety.lean ====
section
/-! DEFINITION. The legal states (spec 10_state R20, R26; 60_exceptions R130; 30_encoding R66) and the predicates the statements use. -/

namespace Sys2Proof.Machine

/-- The legal values of the CK registers (R20, R24). -/
abbrev CkUnit.Legal (u : CkUnit) : Prop :=
  u.err = 0#4 ∨ u.err = 3#4 ∨ u.err = 4#4

/-- The legal values of the RG registers (R20, R26, R27, R29). -/
abbrev RgUnit.Legal (u : RgUnit) : Prop :=
  (1 ≤ u.inW.toNat ∧ u.inW.toNat ≤ 8) ∧ (1 ≤ u.outW.toNat ∧ u.outW.toNat ≤ 8) ∧
    u.cnt.toNat < u.outW.toNat ∧ u.acc.toNat < 2 ^ u.cnt.toNat ∧
    (u.err = 0#4 ∨ u.err = 2#4 ∨ u.err = 6#4 ∨ u.err = 7#4)

/-- What holds of every response (R66, R69, R130): no reserved status; at most 8 groups, none with an error; no data with an error other
than CHECKSUM; no data beyond the groups when there are some. -/
abbrev Response.Legal (r : Response) : Prop :=
  r.status.toNat < 8 ∧ r.count.toNat ≤ 8 ∧ (r.status ≠ 0#4 → r.count = 0#4) ∧
    (r.status ≠ 0#4 → r.status ≠ 5#4 → r.data = 0#64) ∧
    (r.count ≠ 0#4 → r.data.toNat < 2 ^ (8 * r.count.toNat))

/-- The machine's invariant: legal registers, and a legal response in flight that was accepted at an earlier edge. -/
abbrev State.Inv (s : State) : Prop :=
  s.ck.Legal ∧ s.rg.Legal ∧ ∀ f ∈ s.inFlight, f.rsp.Legal ∧ f.since ≤ s.edge

/-- `exec` of `i` in `s` answers the next state in which the units are `ck` and `rg`, the response `r` is in flight, and all else is as it
was. -/
abbrev Answers (i : Instr) (s : State) (ck : CkUnit) (rg : RgUnit) (r : Response) : Prop :=
  exec i s = .next { s with ck := ck, rg := rg, inFlight := some ⟨r, s.edge⟩ }

/-- `t` is `s` but for the units and the response in flight. -/
abbrev SamePorts (s t : State) : Prop :=
  t.held = s.held ∧ t.inputs = s.inputs ∧ t.edge = s.edge

/-- The commands a latched error blocks (spec 40_checksum R82, 60_exceptions R140). -/
abbrev Blockable : Instr → Bool
  | .ckHrph _ | .ckHrpl _ | .ckFold _ | .ckFoldc _ | .ckCheck _ | .rgPush _ | .rgFin => true
  | .ckInit | .ckRead | .rgCfg _ _ _ | .rgClr | .rgRead => false

/-- The latch of a command's unit. -/
abbrev unitErr (i : Instr) (s : State) : Code :=
  match i.unit with
  | .ck => s.ck.err
  | .rg => s.rg.err

/-- The response a command's execution puts in flight, if the model goes on. -/
def responseOf : Host.Outcome State Fault Refusal → Option Response
  | .next t => t.inFlight.map (·.rsp)
  | .fault _ => none
  | .refused _ => none

/-- The host keeps its offer: a word it holds is offered again at the coming edge (spec 30_encoding R71). -/
abbrev OfferKept (s : State) : Prop :=
  s.held = none ∨ ((pins s).cmdValid = true ∧ s.held = some (pins s).cmdWord)

/-- A host that keeps its offers over the given edges while none of them is accepted: a word it offers, or holds already, is offered again
at the next edge (spec 30_encoding R71). -/
def offersKept (held : Option Word) : List PortIn → Bool
  | [] => true
  | p :: ps => (held.isNone || unaccepted p == held) && offersKept (unaccepted p) ps

end Sys2Proof.Machine
end

