-- ==== Sys2Proof/Certificates/Slice0/Obligations.lean ====
section
/-! DEFINITION. The statements for the provers. Each docstring names the rules of `spec/` it formalises. -/

open Sys2Proof Sys2Proof.Machine

/-! ### Encoding -/

/-- Decoding the word of a command gives the command back, with every operand at every value (30_encoding E1, E2, E3). -/
def Obligations.DecodeEncodeRoundTrip : Prop :=
  ∀ i : Instr, decode (encode i) = .command i

/-- A word that decodes to a command is the word of that command: no two words are one command (30_encoding E1, E3). -/
def Obligations.EncodeOfDecoded : Prop :=
  ∀ (w : Word) (i : Instr), decode w = .command i → encode i = w

/-- R58: a word is the command of a row exactly when `(w & mask) = match`, with the rule's own table; and a word of no row is no command. -/
def Obligations.OpcodeMapRows : Prop :=
  let rows : List (Opcode × Word × Word) :=
    [(.ckInit, 0x1000#16, 0xFFFF#16), (.ckHrph, 0x2000#16, 0xFF00#16), (.ckHrpl, 0x3000#16, 0xFF00#16),
      (.ckFold, 0x4000#16, 0xFFE0#16), (.ckFoldc, 0x5000#16, 0xFF00#16), (.ckCheck, 0x6000#16, 0xFFFE#16)] ++
    [(.ckRead, 0x7000#16, 0xFFFF#16), (.rgCfg, 0x8000#16, 0xFE00#16), (.rgClr, 0x9000#16, 0xFFFF#16),
      (.rgPush, 0xA000#16, 0xFF00#16), (.rgFin, 0xB000#16, 0xFFFF#16), (.rgRead, 0xC000#16, 0xFFFF#16)]
  ∀ w : Word,
    (∀ row ∈ rows, (∃ i, decode w = .command i ∧ i.opcode = row.1) ↔ w &&& row.2.2 = row.2.1) ∧
      ((∃ k, decode w = .illegal k) ↔ ∀ row ∈ rows, w &&& row.2.2 ≠ row.2.1)

/-- R60 and R132: the words with a reserved opcode or a reserved bit of R56 set are the words that are no command; the block answers each
with `{1, 0, 0}` and writes no register, whatever the latches hold. -/
def Obligations.IllegalWordsAnswerIllegal : Prop :=
  ∀ w : Word,
    let op := w.toNat / 2 ^ 12
    let arg := w.toNat % 2 ^ 12
    let reserved : Prop :=
      op = 0x0 ∨ op = 0xD ∨ op = 0xE ∨ op = 0xF ∨
        ((op = 0x1 ∨ op = 0x7 ∨ op = 0x9 ∨ op = 0xB ∨ op = 0xC) ∧ arg ≠ 0) ∨
        ((op = 0x2 ∨ op = 0x3 ∨ op = 0x5 ∨ op = 0xA) ∧ 2 ^ 8 ≤ arg) ∨
        (op = 0x4 ∧ 2 ^ 5 ≤ arg) ∨ (op = 0x6 ∧ 2 ≤ arg) ∨ (op = 0x8 ∧ 2 ^ 9 ≤ arg)
    (reserved ↔ ∃ k, decode w = .illegal k) ∧
      (reserved → ∀ s : State,
        acceptWord w s = .next { s with inFlight := some ⟨⟨1#4, 0#4, 0#64⟩, s.edge⟩ })

/-- Six words written out from the spec's encodings and test vectors decode to the commands they stand for, and two illegal ones decode to no
command (30_encoding E3, E4; 95 L2). -/
def Obligations.SpecWordsDecode : Prop :=
  decode 0x1000#16 = .command .ckInit ∧ decode 0x2062#16 = .command (.ckHrph 0x62#8) ∧
    decode 0x4007#16 = .command (.ckFold 7#5) ∧ decode 0x6001#16 = .command (.ckCheck .bech32m) ∧
    decode 0x8158#16 = .command (.rgCfg 8#4 5#4 1#1) ∧ decode 0xA014#16 = .command (.rgPush 20#8) ∧
    (∃ k, decode 0x8200#16 = .illegal k) ∧ ∃ k, decode 0x0000#16 = .illegal k

/-- The word and the operand range of every assembler line of one command (30_encoding E6, the table of the assembler syntax): an operand
outside its range is refused, and otherwise the line's word is the table's. -/
def Obligations.AssemblerWords : Prop :=
  ∀ l : AsmLine,
    let line (inRange : Prop) (word : Nat) : Prop :=
      (inRange → assemble l = some [BitVec.ofNat 16 word]) ∧ (¬ inRange → assemble l = none)
    match l with
    | .ckInit => line True 0x1000
    | .ckHrph ch => line (ch ≤ 255) (0x2000 ||| ch)
    | .ckHrpl ch => line (ch ≤ 255) (0x3000 ||| ch)
    | .ckFold v => line (v ≤ 31) (0x4000 ||| v)
    | .ckFoldc ch => line (ch ≤ 255) (0x5000 ||| ch)
    | .ckCheck var => line (var ≤ 1) (0x6000 ||| var)
    | .ckRead => line True 0x7000
    | .rgCfg iw ow pad => line (iw ≤ 15 ∧ ow ≤ 15 ∧ pad ≤ 1) (0x8000 ||| pad <<< 8 ||| ow <<< 4 ||| iw)
    | .rgClr => line True 0x9000
    | .rgPush sym => line (sym ≤ 255) (0xA000 ||| sym)
    | .rgFin => line True 0xB000
    | .rgRead => line True 0xC000
    | .ckSep | .ckHrp _ | .ckData _ | .rgDec58 | .rgEnc85 => True

/-- R65: each pseudo-instruction's exact expansion, `CK_HRP` for every prefix in `2n + 2` words and `CK_DATA` for every data part. -/
def Obligations.PseudoInstructionExpansions : Prop :=
  assemble .ckSep = some [0x4000#16] ∧ assemble .rgDec58 = some [0x8085#16] ∧ assemble .rgEnc85 = some [0x8158#16] ∧
    ∀ chars : List Nat, (∀ ch ∈ chars, ch ≤ 255) →
      (∃ ws, assemble (.ckHrp chars) = some ws ∧ ws.length = 2 * chars.length + 2 ∧
        ws = [0x1000#16] ++ chars.map (fun ch => BitVec.ofNat 16 (0x2000 + ch)) ++ [0x4000#16] ++
          chars.map (fun ch => BitVec.ofNat 16 (0x3000 + ch))) ∧
      assemble (.ckData chars) = some (chars.map fun ch => BitVec.ofNat 16 (0x5000 + ch))

/-! ### Edges, the handshake and reset -/

/-- A step runs the decoded command: at an edge without reset at which an idle block is offered a word that decodes to `i`, and the host has
kept its offer, the step is `exec i` after the edge's pins are consumed and the offer is no longer pending (30_encoding E3, ports). That an
idle block accepts the word at that very edge is the model's choice (log 4, DESIGN CHOICE), and that the command's writes happen at that edge
is the model's inference (log 5, DEDUCED). -/
def Obligations.StepRunsDecodedCommand : Prop :=
  ∀ (s : State) (i : Instr), (pins s).rst = false → (pins s).cmdValid = true → s.inFlight = none → OfferKept s →
    decode (pins s).cmdWord = .command i →
    step s = exec i { s with inputs := s.inputs.tail, edge := s.edge + 1, held := none }

/-- R150 and R151: at an edge with `rst = 1`, in every state, the outputs show neither `cmd_ready` nor `rsp_valid`, every register takes its
reset value, and a command in flight is discarded. -/
def Obligations.ResetEdgeResetsEverything : Prop :=
  ∀ s : State, (pins s).rst = true →
    (portOut s).cmdReady = false ∧ (portOut s).rspValid = false ∧
      ∃ t, step s = .next t ∧ t.ck = ⟨0x00000001#30, 0#4⟩ ∧ t.rg = ⟨0#15, 0#4, 5#4, 8#4, 0#1, 0#4⟩ ∧ t.inFlight = none ∧
        t.inputs = s.inputs.tail

/-- The block accepts a command at an edge exactly when `rst = 0`, `cmd_valid = 1` and `cmd_ready = 1`, and the word it executes is
`cmd_word` at that edge; at every other edge no command is executed: the registers keep their values or are reset, and no response comes up
that was not in flight (30_encoding, command transfer). That the command's whole effect falls on the accepting edge, so that the registers
keep their values at the edges with a command in flight too, is the model's inference (log 5, DEDUCED); that a word offered and not accepted
is remembered in the field `held`, at a reset edge too, is the model's choice (log 6, DESIGN CHOICE). -/
def Obligations.CommandTransfer : Prop :=
  ∀ s : State, OfferKept s →
    let accepts := (pins s).rst = false ∧ (pins s).cmdValid = true ∧ (portOut s).cmdReady = true
    (accepts → step s = acceptWord (pins s).cmdWord { s with inputs := s.inputs.tail, edge := s.edge + 1, held := none }) ∧
      (¬ accepts → ∃ t, step s = .next t ∧ (t.inFlight = s.inFlight ∨ t.inFlight = none) ∧
        (((pins s).rst = false ∧ t.ck = s.ck ∧ t.rg = s.rg) ∨
          ((pins s).rst = true ∧ t.ck = State.reset.ck ∧ t.rg = State.reset.rg)) ∧
        ∀ w, t.held = some w ↔ (pins s).cmdValid = true ∧ (pins s).cmdWord = w)

/-- A host that changes or drops an offered word before the block accepts it has no step, at an edge without reset (93 U6; that a reset edge
runs all the same is the model's choice, log 6). -/
def Obligations.BrokenOfferHasNoStep : Prop :=
  ∀ (s : State) (w : Word), s.held = some w → ((pins s).cmdValid = false ∨ (pins s).cmdWord ≠ w) →
    (step s = .refused .handshakeViolation ↔ (pins s).rst = false)

/-- An accepted command puts exactly one response in flight, offered at the earliest one edge later; a response is taken at an edge with
`rst = 0`, `rsp_valid = 1` and `rsp_ready = 1`, and otherwise stays as it is; an offered response that is not taken is offered unchanged at
the next edge without reset (30_encoding, response transfer). That the response is fixed at the accepting edge, in flight from there and as
it is at the edges before it is offered too, is the model's inference (log 5, DEDUCED). -/
def Obligations.ResponseTransfer : Prop :=
  (∀ s t : State, acceptsAt s = true → step s = .next t →
    (portOut s).rspValid = false ∧ ∃ r, t.inFlight = some ⟨r, t.edge⟩ ∧ t.edge = s.edge + 1) ∧
  ∀ (s t : State) (f : InFlight), s.inFlight = some f → (pins s).rst = false → step s = .next t →
    ((portOut s).rspValid = true → (pins s).rspReady = true → t.inFlight = none) ∧
      (((portOut s).rspValid = false ∨ (pins s).rspReady = false) → t.inFlight = some f) ∧
      ((portOut s).rspValid = true → f.since ≤ s.edge ∧
        (portOut s).rspStatus = f.rsp.status ∧ (portOut s).rspCount = f.rsp.count ∧ (portOut s).rspData = f.rsp.data ∧
        ((pins s).rspReady = false → (pins t).rst = false →
          (portOut t).rspValid = true ∧ (portOut t).rspStatus = f.rsp.status ∧
            (portOut t).rspCount = f.rsp.count ∧ (portOut t).rspData = f.rsp.data))

/-- While a command is in flight `cmd_ready = 0`, in every state and whatever the pins, so up to and at the edge at which its response is
taken; and a host that never takes the response blocks every later command for as long as it does not: after any number of edges without
reset and without `rsp_ready` the same response is in flight, the registers are as they were and no word was accepted (30_encoding, one
command in flight). That the registers are complete in every state with a command in flight, offered or not, is the model's inference
(log 5, DEDUCED). -/
def Obligations.OneCommandInFlight : Prop :=
  (∀ (s : State) (f : InFlight), s.inFlight = some f → (portOut s).cmdReady = false) ∧
    ∀ (k : Nat) (s t : State) (f : InFlight), s.inFlight = some f →
      (∀ p ∈ s.inputs, p.rst = false ∧ p.rspReady = false) → Host.Core.run core k s = .next t →
      t.inFlight = some f ∧ t.ck = s.ck ∧ t.rg = s.rg ∧ acceptedWords k s = []

/-- From every legal state a step never faults; and a host that is ready to take responses takes exactly the response in flight within a
bounded number of edges, whatever the latency, also while it holds or offers its next word: the block does not hang, and the waiting word is
not accepted before (70_reset, end of a run). The bound depends on the free latency (log 3), and that the registers stay as they are in the
edges before the response is offered is the model's inference (log 5, DEDUCED). -/
def Obligations.EveryCommandCompletes : Prop :=
  (∀ (s : State) (x : Fault), s.Inv → step s ≠ .fault x) ∧
    ∀ (s : State) (f : InFlight), s.Inv → s.inFlight = some f →
      ∃ k, ∀ ps rest : List PortIn, ps.length = k + 1 → (∀ p ∈ ps, p.rst = false ∧ p.rspReady = true) →
        offersKept s.held ps = true →
        let s' : State := { s with inputs := ps ++ rest }
        ∃ t, Host.Core.run core (k + 1) s' = .next t ∧ takenResponses (k + 1) s' = [f.rsp] ∧
          acceptedWords (k + 1) s' = [] ∧ t.inFlight = none ∧ t.ck = s.ck ∧ t.rg = s.rg ∧ t.inputs = rest

/-- From every legal state a step answers a next state, unless the host broke its offer at an edge without reset (70_reset, I1 and end of a
run; 93 U6). That a reset edge steps although the offer is broken is the model's choice (log 6, DESIGN CHOICE). -/
def Obligations.StepStopsOnlyOnBrokenOffer : Prop :=
  ∀ s : State, s.Inv →
    ((pins s).rst = true ∨ OfferKept s → ∃ t, step s = .next t) ∧
      ((pins s).rst = false ∧ ¬ OfferKept s → step s = .refused .handshakeViolation)

/-- Every step keeps the invariant: legal registers (the latches, the widths, `RG_CNT < OUT_W`, `RG_ACC < 2^RG_CNT`) and a legal response in
flight (10_state, Summary and B1; 60_exceptions G1; 30_encoding, Response format). -/
def Obligations.StepKeepsInvariant : Prop :=
  ∀ s t : State, s.Inv → step s = .next t → t.Inv

/-- The state after reset is legal and idle, with the registers' values of 10_state's Summary. That the host's side is empty there is the
model's choice (log 1, log 2), and that the idle block is ready at once, `cmd_ready = 1`, is the model's choice too (log 4, DESIGN CHOICE). -/
def Obligations.ResetStateIsLegal : Prop :=
  State.reset.Inv ∧ State.reset.ck = ⟨1#30, 0#4⟩ ∧ State.reset.rg = ⟨0#15, 0#4, 5#4, 8#4, 0#1, 0#4⟩ ∧
    (pins State.reset).rst = false ∧ (portOut State.reset).cmdReady = true ∧ (portOut State.reset).rspValid = false

/-- R154: from any state, `CK_INIT` followed by `RG_CFG 5, 8, 0` leaves the registers of the reset state. -/
def Obligations.ResetEqualsInitThenConfigure : Prop :=
  ∀ s : State, ∃ t rs, transactAll [0x1000#16, 0x8085#16] s = some (t, rs) ∧
    t.ck = State.reset.ck ∧ t.rg = State.reset.rg ∧ rs = [⟨0#4, 0#4, 1#64⟩, ⟨0#4, 0#4, 0#64⟩]

/-- At every edge that accepts no command the block keeps its registers or is reset (60_exceptions, H6: between commands it keeps them, and
only reset changes them without a command). That this holds at the edges with a command in flight too, where the spec only says that the
writes are complete when the response is first offered, is the model's inference (log 5, DEDUCED). -/
def Obligations.OnlyResetChangesIdleRegisters : Prop :=
  ∀ s t : State, step s = .next t → acceptsAt s = false →
    (t.ck = s.ck ∧ t.rg = s.rg) ∨ ((pins s).rst = true ∧ t.ck = State.reset.ck ∧ t.rg = State.reset.rg)

/-- The edges refine the transactions (20_memory D; 10_state B7): over any number of edges without reset, from any idle state, the
responses taken and the one still in flight are exactly the responses of the accepted words as a sequence of transactions, in order, and the
registers are those the sequence leaves. That the registers and the response of the last command are there while it is in flight and perhaps
not yet offered is the model's inference (log 5, DEDUCED). -/
def Obligations.EdgesRefineTransactions : Prop :=
  ∀ (k : Nat) (s t : State), s.inFlight = none → (∀ p ∈ s.inputs, p.rst = false) →
    Host.Core.run core k s = .next t →
    ∃ u rs, transactAll (acceptedWords k s) s = some (u, rs) ∧ t.ck = u.ck ∧ t.rg = u.rg ∧
      rs = takenResponses k s ++ (t.inFlight.map (·.rsp)).toList

/-- In every legal state every word, command or not, gets exactly one response, which is legal, and leaves a legal state (30_encoding,
Response format; 10_state B7). -/
def Obligations.EveryWordHasOneResponse : Prop :=
  ∀ (s : State) (w : Word), s.Inv → ∃ t r, transact w s = some (t, r) ∧ t.Inv ∧ r.Legal ∧ SamePorts s t

/-! ### The checksum unit's functions -/

/-- R76 and R77: the polymod step, with the rule's own constants, and folding as the step with the value XORed in, before or after the
generator terms. -/
def Obligations.PolymodStepAndFold : Prop :=
  ∀ (c : Acc) (v : Sym),
    let base : Acc := (c &&& 0x1ffffff#30) <<< 5
    let term (i : Nat) (g : Acc) : Acc := if c.toNat / 2 ^ (25 + i) % 2 = 1 then g else 0#30
    let terms : Acc := term 0 0x3b6a57b2#30 ^^^ term 1 0x26508e6d#30 ^^^ term 2 0x1ea119fa#30 ^^^ term 3 0x3d4233dd#30 ^^^
      term 4 0x2a1462b3#30
    polymodStep c = base ^^^ terms ∧ foldSymbol c v = polymodStep c ^^^ v.setWidth 30 ∧
      foldSymbol c v = (base ^^^ v.setWidth 30) ^^^ terms

/-- R90: `fold` is linear over GF(2). -/
def Obligations.FoldIsLinear : Prop :=
  polymodStep 0#30 = 0#30 ∧
    ∀ (c1 c2 : Acc) (v1 v2 : Sym), foldSymbol (c1 ^^^ c2) (v1 ^^^ v2) = foldSymbol c1 v1 ^^^ foldSymbol c2 v2

/-- R92: below `2^25` folding only shifts; and for every accumulator the 32 results are all different. -/
def Obligations.FoldOfSmallAccumulator : Prop :=
  (∀ (c : Acc) (v : Sym), c.toNat < 2 ^ 25 → foldSymbol c v = (c <<< 5) ||| v.setWidth 30) ∧
    ∀ (c : Acc) (v1 v2 : Sym), foldSymbol c v1 ^^^ foldSymbol c v2 = (v1 ^^^ v2).setWidth 30 ∧
      (foldSymbol c v1 = foldSymbol c v2 → v1 = v2)

/-- A character decodes to a value exactly when it stands at that position of the alphabet (40_checksum, Functions). The characters' codes are
presumed, by the spec (93 G1) and by the model (log 12, PRESUMED). -/
def Obligations.AlphabetDecoding : Prop :=
  let characters : List Char :=
    ['q', 'p', 'z', 'r', 'y', '9', 'x', '8', 'g', 'f', '2', 't', 'v', 'd', 'w', '0'] ++
    ['s', '3', 'j', 'n', '5', '4', 'k', 'h', 'c', 'e', '6', 'm', 'u', 'a', '7', 'l']
  ∀ (ch : Byte) (v : Sym), alphaDec ch = some v ↔ (characters.map Char.toNat)[v.toNat]? = some ch.toNat

/-! ### What each checksum command does -/

/-- R83: `CK_INIT`, in every state. -/
def Obligations.InitStartsChecksum : Prop :=
  ∀ s : State, Answers .ckInit s ⟨0x00000001#30, 0#4⟩ s.rg ⟨0#4, 0#4, 0x00000001#64⟩

/-- R84: `CK_HRPH ch`: a character of 33 to 126 folds its high part and is answered with the new `CK_ACC`; any other raises PREFIX and
latches it; a latched error blocks. -/
def Obligations.HrphFoldsHighPart : Prop :=
  ∀ (s : State) (ch : Byte),
    let c := foldSymbol s.ck.acc (BitVec.ofNat 5 (ch.toNat / 32))
    (s.ck.err = 0#4 → 33 ≤ ch.toNat → ch.toNat ≤ 126 →
      Answers (.ckHrph ch) s ⟨c, 0#4⟩ s.rg ⟨0#4, 0#4, BitVec.ofNat 64 c.toNat⟩) ∧
    (s.ck.err = 0#4 → (ch.toNat < 33 ∨ 126 < ch.toNat) →
      Answers (.ckHrph ch) s ⟨s.ck.acc, 3#4⟩ s.rg ⟨3#4, 0#4, 0#64⟩) ∧
    (s.ck.err ≠ 0#4 → s.ck.Legal → Answers (.ckHrph ch) s s.ck s.rg ⟨s.ck.err, 0#4, 0#64⟩)

/-- R85: `CK_HRPL ch`: as `CK_HRPH`, with the low part. -/
def Obligations.HrplFoldsLowPart : Prop :=
  ∀ (s : State) (ch : Byte),
    let c := foldSymbol s.ck.acc (BitVec.ofNat 5 (ch.toNat % 32))
    (s.ck.err = 0#4 → 33 ≤ ch.toNat → ch.toNat ≤ 126 →
      Answers (.ckHrpl ch) s ⟨c, 0#4⟩ s.rg ⟨0#4, 0#4, BitVec.ofNat 64 c.toNat⟩) ∧
    (s.ck.err = 0#4 → (ch.toNat < 33 ∨ 126 < ch.toNat) →
      Answers (.ckHrpl ch) s ⟨s.ck.acc, 3#4⟩ s.rg ⟨3#4, 0#4, 0#64⟩) ∧
    (s.ck.err ≠ 0#4 → s.ck.Legal → Answers (.ckHrpl ch) s s.ck s.rg ⟨s.ck.err, 0#4, 0#64⟩)

/-- R86: `CK_FOLD v`, for every `v`. -/
def Obligations.FoldFoldsValue : Prop :=
  ∀ (s : State) (v : Sym),
    let c := foldSymbol s.ck.acc v
    (s.ck.err = 0#4 → Answers (.ckFold v) s ⟨c, 0#4⟩ s.rg ⟨0#4, 0#4, BitVec.ofNat 64 c.toNat⟩) ∧
    (s.ck.err ≠ 0#4 → s.ck.Legal → Answers (.ckFold v) s s.ck s.rg ⟨s.ck.err, 0#4, 0#64⟩)

/-- R87: `CK_FOLDC ch`: a character of the alphabet folds its value, which the response shows at `data[36:32]` above the new `CK_ACC`; any
other raises ALPHABET and latches it; a latched error blocks. -/
def Obligations.FoldcDecodesAndFolds : Prop :=
  ∀ (s : State) (ch : Byte),
    (∀ v, s.ck.err = 0#4 → alphaDec ch = some v →
      let c := foldSymbol s.ck.acc v
      Answers (.ckFoldc ch) s ⟨c, 0#4⟩ s.rg ⟨0#4, 0#4, BitVec.ofNat 64 (v.toNat * 2 ^ 32 + c.toNat)⟩) ∧
    (s.ck.err = 0#4 → alphaDec ch = none → Answers (.ckFoldc ch) s ⟨s.ck.acc, 4#4⟩ s.rg ⟨4#4, 0#4, 0#64⟩) ∧
    (s.ck.err ≠ 0#4 → s.ck.Legal → Answers (.ckFoldc ch) s s.ck s.rg ⟨s.ck.err, 0#4, 0#64⟩)

/-- R88 and R136: `CK_CHECK var` compares `CK_ACC` with the variant's target, writes no register either way, and shows `CK_ACC`; a latched
error blocks it. -/
def Obligations.CheckComparesWithTarget : Prop :=
  ∀ (s : State) (var : Variant),
    let t : Acc := match var with
      | .bech32 => 0x00000001#30
      | .bech32m => 0x2bc830a3#30
    (s.ck.err = 0#4 → Answers (.ckCheck var) s s.ck s.rg
      ⟨if s.ck.acc = t then 0#4 else 5#4, 0#4, BitVec.ofNat 64 s.ck.acc.toNat⟩) ∧
    (s.ck.err ≠ 0#4 → s.ck.Legal → Answers (.ckCheck var) s s.ck s.rg ⟨s.ck.err, 0#4, 0#64⟩)

/-- R89: `CK_READ`, in every state: never blocked, writes nothing, shows `CK_ERR` at `data[35:32]` above `CK_ACC`. -/
def Obligations.CkReadShowsRegisters : Prop :=
  ∀ s : State, Answers .ckRead s s.ck s.rg ⟨0#4, 0#4, BitVec.ofNat 64 (s.ck.err.toNat * 2 ^ 32 + s.ck.acc.toNat)⟩

/-! ### What each regrouper command does -/

/-- R110 and R28: `RG_CFG iw, ow, pad`, in every state: legal widths configure and start an empty conversion; an illegal width writes none
of the configuration or the buffer and raises OPERAND, which the latch takes if it is free. -/
def Obligations.CfgConfiguresOrRejects : Prop :=
  ∀ (s : State) (iw ow : BitVec 4) (padf : BitVec 1),
    let legal := (1 ≤ iw.toNat ∧ iw.toNat ≤ 8) ∧ (1 ≤ ow.toNat ∧ ow.toNat ≤ 8)
    (legal → Answers (.rgCfg iw ow padf) s s.ck ⟨0#15, 0#4, iw, ow, padf, 0#4⟩ ⟨0#4, 0#4, 0#64⟩) ∧
    (¬ legal → Answers (.rgCfg iw ow padf) s s.ck { s.rg with err := if s.rg.err = 0#4 then 2#4 else s.rg.err }
      ⟨2#4, 0#4, 0#64⟩)

/-- R111: `RG_CLR`, in every state. -/
def Obligations.ClrKeepsConfiguration : Prop :=
  ∀ s : State, Answers .rgClr s s.ck { s.rg with acc := 0#15, cnt := 0#4, err := 0#4 } ⟨0#4, 0#4, 0#64⟩

/-- R112: `RG_PUSH sym`: in a legal state (the domain of R107's `consume`) a symbol below `2^IN_W` is consumed, the groups it completes are
answered with their number; a wider symbol leaves the buffer and raises OPERAND, latched; a latched error blocks. -/
def Obligations.PushConsumesOrRejects : Prop :=
  ∀ (s : State) (sym : Byte),
    let c := consume s.rg.inW.toNat s.rg.outW.toNat s.rg.acc.toNat s.rg.cnt.toNat sym.toNat
    (s.rg.err = 0#4 → s.rg.Legal → sym.toNat < 2 ^ s.rg.inW.toNat →
      Answers (.rgPush sym) s s.ck { s.rg with acc := BitVec.ofNat 15 c.1, cnt := BitVec.ofNat 4 c.2.1 }
        ⟨0#4, BitVec.ofNat 4 c.2.2.length, packGroups c.2.2⟩) ∧
    (s.rg.err = 0#4 → 2 ^ s.rg.inW.toNat ≤ sym.toNat →
      Answers (.rgPush sym) s s.ck { s.rg with err := 2#4 } ⟨2#4, 0#4, 0#64⟩) ∧
    (s.rg.err ≠ 0#4 → s.rg.Legal → Answers (.rgPush sym) s s.ck s.rg ⟨s.rg.err, 0#4, 0#64⟩)

/-- R113: `RG_FIN`: with `PAD = 1` the left-aligned leftover is the one group emitted, if there is a leftover; with `PAD = 0` it raises
PAD_EXCESS, else PAD_NONZERO, leaving the buffer, or succeeds without a group; success empties the buffer; a latched error blocks. -/
def Obligations.FinAppliesPaddingRule : Prop :=
  ∀ s : State,
    let leftover := (s.rg.acc.toNat <<< (s.rg.outW.toNat - s.rg.cnt.toNat)) &&& (2 ^ s.rg.outW.toNat - 1)
    let emptied : RgUnit := { s.rg with acc := 0#15, cnt := 0#4 }
    (s.rg.err = 0#4 → s.rg.pad = 1#1 → s.rg.Legal → Answers .rgFin s s.ck emptied
      (if 0 < s.rg.cnt.toNat then ⟨0#4, 1#4, BitVec.ofNat 64 leftover⟩ else ⟨0#4, 0#4, 0#64⟩)) ∧
    (s.rg.err = 0#4 → s.rg.pad = 0#1 → s.rg.inW.toNat ≤ s.rg.cnt.toNat →
      Answers .rgFin s s.ck { s.rg with err := 6#4 } ⟨6#4, 0#4, 0#64⟩) ∧
    (s.rg.err = 0#4 → s.rg.pad = 0#1 → s.rg.cnt.toNat < s.rg.inW.toNat → s.rg.acc ≠ 0#15 →
      Answers .rgFin s s.ck { s.rg with err := 7#4 } ⟨7#4, 0#4, 0#64⟩) ∧
    (s.rg.err = 0#4 → s.rg.pad = 0#1 → s.rg.cnt.toNat < s.rg.inW.toNat → s.rg.acc = 0#15 →
      Answers .rgFin s s.ck emptied ⟨0#4, 0#4, 0#64⟩) ∧
    (s.rg.err ≠ 0#4 → s.rg.Legal → Answers .rgFin s s.ck s.rg ⟨s.rg.err, 0#4, 0#64⟩)

/-- R109, R137 and R138: in a legal state with `PAD = 0` and no latched error the result of `RG_FIN` is decided by the excess test first and
then by the left-aligned leftover, which is nonzero exactly when `RG_ACC` is; an error is latched and leaves the buffer. -/
def Obligations.FinUnpaddedTests : Prop :=
  ∀ s : State, s.rg.Legal → s.rg.err = 0#4 → s.rg.pad = 0#1 →
    let leftover := (s.rg.acc.toNat <<< (s.rg.outW.toNat - s.rg.cnt.toNat)) &&& (2 ^ s.rg.outW.toNat - 1)
    (leftover ≠ 0 ↔ s.rg.acc ≠ 0#15) ∧
      ∃ rg r, Answers .rgFin s s.ck rg r ∧
        (if s.rg.inW.toNat ≤ s.rg.cnt.toNat then r.status = 6#4 ∧ rg = { s.rg with err := 6#4 }
          else if leftover ≠ 0 then r.status = 7#4 ∧ rg = { s.rg with err := 7#4 }
          else r.status = 0#4 ∧ r.count = 0#4 ∧ rg.acc = 0#15 ∧ rg.cnt = 0#4 ∧ rg.err = 0#4)

/-- R114: `RG_READ`, in every state: never blocked, writes nothing, shows every register at its place. -/
def Obligations.RgReadShowsRegisters : Prop :=
  ∀ s : State, Answers .rgRead s s.ck s.rg
    ⟨0#4, 0#4, BitVec.ofNat 64 (s.rg.err.toNat * 2 ^ 36 + s.rg.pad.toNat * 2 ^ 32 + s.rg.outW.toNat * 2 ^ 28 +
      s.rg.inW.toNat * 2 ^ 24 + s.rg.cnt.toNat * 2 ^ 16 + s.rg.acc.toNat)⟩

/-! ### The regrouper's functions -/

/-- R107: the bits leave in the order they entered. Read as digits with the oldest bits first, the buffer followed by the symbol is the
groups followed by the new buffer; each group has `OUT_W` bits, and fewer than `OUT_W` bits are left. -/
def Obligations.ConsumeKeepsBitOrder : Prop :=
  ∀ inW outW acc cnt x : Nat, 1 ≤ inW → inW ≤ 8 → 1 ≤ outW → outW ≤ 8 → cnt < outW → acc < 2 ^ cnt → x < 2 ^ inW →
    let c := consume inW outW acc cnt x
    acc * 2 ^ inW + x = bitsValue outW (c.2.2.map BitVec.toNat) * 2 ^ c.2.1 + c.1 ∧
      (∀ g ∈ c.2.2, g.toNat < 2 ^ outW) ∧ c.1 < 2 ^ c.2.1 ∧ c.2.1 < outW ∧ c.2.2.length * outW + c.2.1 = cnt + inW

/-- R115: one `RG_PUSH` that is not rejected emits `floor((cnt + IN_W) / OUT_W)` groups and leaves `(cnt + IN_W) mod OUT_W` bits. -/
def Obligations.PushCounts : Prop :=
  ∀ (s : State) (sym : Byte), s.rg.Legal → s.rg.err = 0#4 → sym.toNat < 2 ^ s.rg.inW.toNat →
    ∃ rg r, Answers (.rgPush sym) s s.ck rg r ∧ r.status = 0#4 ∧
      r.count.toNat = (s.rg.cnt.toNat + s.rg.inW.toNat) / s.rg.outW.toNat ∧
      rg.cnt.toNat = (s.rg.cnt.toNat + s.rg.inW.toNat) % s.rg.outW.toNat

/-- R68: the k-th group of a command is in byte `k` of the response's data, the bytes from `count` on are 0, and `count` is the number of
groups; the groups can be read back from the response. -/
def Obligations.GroupPacking : Prop :=
  ∀ gs : List Byte, gs.length ≤ 8 →
    (∀ k, k < 8 → (packGroups gs).extractLsb' (8 * k) 8 = gs.getD k 0#8) ∧
      (groupsResponse gs).count.toNat = gs.length ∧ groupsOf (groupsResponse gs) = gs

/-- R118 and R119: in a legal state the intermediate buffer of a push has at most 15 bits, the kept value has fewer than `OUT_W` bits, and a
command emits at most 8 groups, `RG_FIN` at most 1. -/
def Obligations.BufferAndGroupBounds : Prop :=
  ∀ s : State, s.rg.Legal →
    (∀ sym : Byte, sym.toNat < 2 ^ s.rg.inW.toNat → (s.rg.acc.toNat <<< s.rg.inW.toNat ||| sym.toNat) < 2 ^ 15) ∧
      ∀ (i : Instr) (t : State) (f : InFlight), exec i s = .next t → t.inFlight = some f →
        t.rg.acc.toNat < 2 ^ (t.rg.outW.toNat - 1) ∧ f.rsp.count.toNat ≤ 8 ∧ (i = .rgFin → f.rsp.count.toNat ≤ 1)

/-! ### Errors, latches and frames -/

/-- R140: a latched error blocks the unit's blocked commands, which answer the latch and write nothing, and never the other unit's: the
answer of a command is the same whatever the other unit holds. -/
def Obligations.LatchBlocksOwnUnitOnly : Prop :=
  ∀ (i : Instr) (s : State), s.Inv →
    (Blockable i = true → unitErr i s ≠ 0#4 → Answers i s s.ck s.rg ⟨unitErr i s, 0#4, 0#64⟩) ∧
      (i.unit = .ck → ∀ rg : RgUnit, responseOf (exec i { s with rg := rg }) = responseOf (exec i s)) ∧
      (i.unit = .rg → ∀ ck : CkUnit, responseOf (exec i { s with ck := ck }) = responseOf (exec i s))

/-- A blocked command of a unit whose latch holds a code of 8 to 15, which no run reaches, stops the model with the reserved status (93 U4). -/
def Obligations.ReservedLatchStops : Prop :=
  ∀ (i : Instr) (s : State), Blockable i = true →
    (exec i s = .fault .reservedStatus ↔ 8 ≤ (unitErr i s).toNat)

/-- R35: no CK command reads or writes an RG register, and no RG command reads or writes a CK register. -/
def Obligations.UnitsAreIndependent : Prop :=
  ∀ (i : Instr) (s t : State), exec i s = .next t →
    (i.unit = .ck → t.rg = s.rg ∧ ∀ rg : RgUnit, exec i { s with rg := rg } = .next { t with rg := rg }) ∧
      (i.unit = .rg → t.ck = s.ck ∧ ∀ ck : CkUnit, exec i { s with ck := ck } = .next { t with ck := ck })

/-- The frame of every command, from the "written by" column of 10_state's Summary: each register is unchanged unless the command is one the
column lists for it, and the host's side of the ports is unchanged by executing a command. -/
def Obligations.RegistersWrittenOnlyByTheirCommands : Prop :=
  ∀ (i : Instr) (s t : State), exec i s = .next t →
    SamePorts s t ∧
      (i.opcode ∉ [.ckInit, .ckHrph, .ckHrpl, .ckFold, .ckFoldc] → t.ck.acc = s.ck.acc) ∧
      (i.opcode ∉ [.ckInit, .ckHrph, .ckHrpl, .ckFoldc] → t.ck.err = s.ck.err) ∧
      (i.opcode ∉ [.rgCfg, .rgClr, .rgPush, .rgFin] → t.rg.acc = s.rg.acc ∧ t.rg.cnt = s.rg.cnt ∧ t.rg.err = s.rg.err) ∧
      (i.opcode ≠ .rgCfg → t.rg.inW = s.rg.inW ∧ t.rg.outW = s.rg.outW ∧ t.rg.pad = s.rg.pad)

/-- `CK_ERR` takes the first PREFIX or ALPHABET a CK command raises, keeps it against every later one, and is cleared by `CK_INIT` only and by
reset (10_state, B1). That it is cleared at the very edge that accepts `CK_INIT` is the model's inference (log 5, DEDUCED). -/
def Obligations.CkErrLatchesFirstError : Prop :=
  (∀ (i : Instr) (s t : State) (f : InFlight), exec i s = .next t → t.inFlight = some f →
    t.ck.err = if i = .ckInit then 0#4
      else if s.ck.err ≠ 0#4 then s.ck.err
      else if i.unit = .ck ∧ (f.rsp.status = 3#4 ∨ f.rsp.status = 4#4) then f.rsp.status
      else 0#4) ∧
    ∀ s t : State, step s = .next t → s.ck.err ≠ 0#4 → t.ck.err = 0#4 →
      (pins s).rst = true ∨ (acceptsAt s = true ∧ decode (pins s).cmdWord = .command .ckInit)

/-- `RG_ERR` takes the first OPERAND, PAD_EXCESS or PAD_NONZERO an RG command raises, keeps it against every later one, and is cleared by
`RG_CLR`, by an `RG_CFG` that raises nothing and by reset only (10_state, B4). That it is cleared at the very edge that accepts `RG_CLR` or
`RG_CFG` is the model's inference (log 5, DEDUCED). -/
def Obligations.RgErrLatchesFirstError : Prop :=
  (∀ (i : Instr) (s t : State) (f : InFlight), exec i s = .next t → t.inFlight = some f →
    t.rg.err = if i = .rgClr ∨ (i.opcode = .rgCfg ∧ f.rsp.status = 0#4) then 0#4
      else if s.rg.err ≠ 0#4 then s.rg.err
      else if i.unit = .rg ∧ (f.rsp.status = 2#4 ∨ f.rsp.status = 6#4 ∨ f.rsp.status = 7#4) then f.rsp.status
      else 0#4) ∧
    ∀ s t : State, step s = .next t → s.rg.err ≠ 0#4 → t.rg.err = 0#4 →
      (pins s).rst = true ∨
        (acceptsAt s = true ∧ ∃ i, decode (pins s).cmdWord = .command i ∧ (i.opcode = .rgClr ∨ i.opcode = .rgCfg))

/-- R131 and R69: a command that raises an error writes no register but, for a latched code, its unit's latch when that was free; its
response is `{code, 0, 0}`, except that CHECKSUM comes from `CK_CHECK` alone, with `CK_ACC` as data. -/
def Obligations.ErrorWritesOnlyItsLatch : Prop :=
  ∀ (i : Instr) (s t : State) (f : InFlight), s.Inv → exec i s = .next t → t.inFlight = some f → f.rsp.status ≠ 0#4 →
    (t.ck = s.ck ∨ (i.unit = .ck ∧ s.ck.err = 0#4 ∧ t.ck = { s.ck with err := f.rsp.status })) ∧
      (t.rg = s.rg ∨ (i.unit = .rg ∧ s.rg.err = 0#4 ∧ t.rg = { s.rg with err := f.rsp.status })) ∧
      (f.rsp.status ≠ 5#4 → f.rsp = ⟨f.rsp.status, 0#4, 0#64⟩) ∧
      (f.rsp.status = 5#4 → i.opcode = .ckCheck ∧ t.ck = s.ck ∧ f.rsp = ⟨5#4, 0#4, BitVec.ofNat 64 s.ck.acc.toNat⟩)

/-- R141: the one status of every word in every legal state, the first condition that applies in the rule's order: ILLEGAL, the latched code,
the operand checks, PAD_EXCESS then PAD_NONZERO, CHECKSUM. -/
def Obligations.StatusPriority : Prop :=
  ∀ (s : State) (w : Word), s.Inv → ∃ t f, acceptWord w s = .next t ∧ t.inFlight = some f ∧
    f.rsp.status =
      match decode w with
      | .illegal _ => 1#4
      | .command i =>
        if Blockable i = true ∧ unitErr i s ≠ 0#4 then unitErr i s
        else match i with
          | .rgCfg iw ow _ =>
            if (1 ≤ iw.toNat ∧ iw.toNat ≤ 8) ∧ (1 ≤ ow.toNat ∧ ow.toNat ≤ 8) then 0#4 else 2#4
          | .rgPush sym => if 2 ^ s.rg.inW.toNat ≤ sym.toNat then 2#4 else 0#4
          | .ckHrph ch | .ckHrpl ch => if 33 ≤ ch.toNat ∧ ch.toNat ≤ 126 then 0#4 else 3#4
          | .ckFoldc ch => if alphaDec ch = none then 4#4 else 0#4
          | .rgFin =>
            if s.rg.pad = 0#1 ∧ s.rg.inW.toNat ≤ s.rg.cnt.toNat then 6#4
            else if s.rg.pad = 0#1 ∧ s.rg.acc ≠ 0#15 then 7#4 else 0#4
          | .ckCheck .bech32 => if s.ck.acc = 0x00000001#30 then 0#4 else 5#4
          | .ckCheck .bech32m => if s.ck.acc = 0x2bc830a3#30 then 0#4 else 5#4
          | .ckInit | .ckFold _ | .ckRead | .rgClr | .rgRead => 0#4

/-- `CK_READ`, `RG_READ` and `CK_CHECK` write no register and answer the same twice in a row; `CK_INIT`, `RG_CLR` and `RG_CFG` twice in a
row leave the registers of once (20_memory C2, C3). -/
def Obligations.RepeatedCommands : Prop :=
  ∀ (i : Instr) (s t u : State), exec i s = .next t → exec i { t with inFlight := none } = .next u →
    (i.opcode ∈ [.ckRead, .rgRead, .ckCheck] →
      t.ck = s.ck ∧ t.rg = s.rg ∧ u.ck = s.ck ∧ u.rg = s.rg ∧ u.inFlight = t.inFlight) ∧
      (i.opcode ∈ [.ckInit, .rgClr, .rgCfg] → u.ck = t.ck ∧ u.rg = t.rg)

/-! ### Command sequences -/

/-- R79: the sequence of `CK_HRP "s"`, from any state, computes the prefix expansion when every character is in range; otherwise it ends
with PREFIX latched. -/
def Obligations.HrpSequenceComputesSeed : Prop :=
  ∀ (s : State) (chars : List Byte), ∃ t rs, transactAll ((hrpSequence chars).map encode) s = some (t, rs) ∧ t.rg = s.rg ∧
    ((∀ ch ∈ chars, 33 ≤ ch.toNat ∧ ch.toNat ≤ 126) →
      t.ck = ⟨hrpSeed chars, 0#4⟩ ∧ ∀ r ∈ rs, r.status = 0#4) ∧
    ((∃ ch ∈ chars, ¬ (33 ≤ ch.toNat ∧ ch.toNat ≤ 126)) → t.ck.err = 3#4 ∧ ∃ r ∈ rs, r.status = 3#4)

/-- R91: a whole checksum, from any state, with a legal prefix and data characters of the alphabet, reports OK for a variant exactly when the
polymod of the expanded prefix and the data values is the variant's target, and CHECKSUM otherwise. -/
def Obligations.ChecksumSequenceComputesPolymod : Prop :=
  ∀ (s : State) (chars data : List Byte) (values : List Sym) (var : Variant),
    (∀ ch ∈ chars, 33 ≤ ch.toNat ∧ ch.toNat ≤ 126) → data.map alphaDec = values.map some →
    let c := polymod (chars.map (fun ch => BitVec.ofNat 5 (ch.toNat / 32)) ++ [0#5] ++
      chars.map (fun ch => BitVec.ofNat 5 (ch.toNat % 32)) ++ values)
    let goal : Acc := match var with
      | .bech32 => 0x00000001#30
      | .bech32m => 0x2bc830a3#30
    ∃ t rs last, transactAll (checksumWords chars data var) s = some (t, rs ++ [last]) ∧ (∀ r ∈ rs, r.status = 0#4) ∧
      t.ck = ⟨c, 0#4⟩ ∧ t.rg = s.rg ∧ (last.status = 0#4 ↔ c = goal) ∧ (last.status = 5#4 ↔ c ≠ goal)

/-- R116: from an empty buffer without a latched error, pushing symbols and finishing emits exactly the output of the source document's
conversion, whose buffer keeps every bit, and raises PAD_EXCESS or PAD_NONZERO exactly when it fails with that message. -/
def Obligations.RegroupingEqualsDoc0 : Prop :=
  ∀ (s : State) (xs : List Byte), s.rg.Legal → s.rg.err = 0#4 → s.rg.cnt = 0#4 →
    (∀ x ∈ xs, x.toNat < 2 ^ s.rg.inW.toNat) →
    let d := doc0Convert s.rg.inW.toNat s.rg.outW.toNat 0 0 (xs.map BitVec.toNat)
    ∃ t rs last, transactAll (pushWords xs ++ [encode .rgFin]) s = some (t, rs ++ [last]) ∧ (∀ r ∈ rs, r.status = 0#4) ∧
      match doc0Finish s.rg.inW.toNat s.rg.outW.toNat (s.rg.pad = 1#1) d.2.1 d.2.2 with
      | .done gs =>
        last.status = 0#4 ∧ (groupsOfAll (rs ++ [last])).map BitVec.toNat = d.1 ++ gs ∧ t.rg.cnt = 0#4 ∧ t.rg.acc = 0#15
      | .excessPadding => last.status = 6#4 ∧ (groupsOfAll (rs ++ [last])).map BitVec.toNat = d.1
      | .nonzeroPadding => last.status = 7#4 ∧ (groupsOfAll (rs ++ [last])).map BitVec.toNat = d.1

/-- R120: for every byte sequence, from any state, converting 8-to-5 with padding emits `ceil(8n / 5)` groups whose padding is zero bits, and
converting those groups 5-to-8 without padding succeeds and gives the bytes back. -/
def Obligations.RoundTripOfBytes : Prop :=
  ∀ (s : State) (bs : List Byte), ∃ t rs u qs,
    transactAll (regroupWords 8#4 5#4 1#1 bs) s = some (t, rs) ∧ (∀ r ∈ rs, r.status = 0#4) ∧
      (groupsOfAll rs).length = (8 * bs.length + 4) / 5 ∧
      bitsValue 5 ((groupsOfAll rs).map BitVec.toNat) =
        bitsValue 8 (bs.map BitVec.toNat) * 2 ^ (5 * ((8 * bs.length + 4) / 5) - 8 * bs.length) ∧
      transactAll (regroupWords 5#4 8#4 0#1 (groupsOfAll rs)) t = some (u, qs) ∧ (∀ r ∈ qs, r.status = 0#4) ∧
      groupsOfAll qs = bs

/-- R117: in the 5-to-8 direction, `k` symbols from an empty buffer emit `floor(5k / 8)` bytes and leave `5k mod 8` bits; `RG_FIN` then raises
PAD_EXCESS exactly when `k mod 8` is 1, 3 or 6, and otherwise accepts exactly a zero leftover. -/
def Obligations.FiveToEightCounts : Prop :=
  ∀ (s : State) (xs : List Byte), s.rg.Legal → s.rg.inW = 5#4 → s.rg.outW = 8#4 → s.rg.pad = 0#1 → s.rg.err = 0#4 →
    s.rg.cnt = 0#4 → (∀ x ∈ xs, x.toNat < 32) →
    let k := xs.length
    ∃ t rs, transactAll (pushWords xs) s = some (t, rs) ∧ (groupsOfAll rs).length = 5 * k / 8 ∧ t.rg.cnt.toNat = 5 * k % 8 ∧
      ∃ u r, transact (encode .rgFin) t = some (u, r) ∧
        (r.status = 6#4 ↔ k % 8 = 1 ∨ k % 8 = 3 ∨ k % 8 = 6) ∧
        (¬ (k % 8 = 1 ∨ k % 8 = 3 ∨ k % 8 = 6) → (r.status = 0#4 ↔ t.rg.acc = 0#15))

/-- R121: in the 8-to-5 direction with padding, `n` bytes from any state emit `ceil(8n / 5)` groups, one of them from `RG_FIN` exactly when
`8n mod 5 ≠ 0`. -/
def Obligations.EightToFiveCounts : Prop :=
  ∀ (s : State) (bs : List Byte), ∃ t rs last,
    transactAll (regroupWords 8#4 5#4 1#1 bs) s = some (t, rs ++ [last]) ∧
      (groupsOfAll (rs ++ [last])).length = (8 * bs.length + 4) / 5 ∧
      last.count.toNat = if 8 * bs.length % 5 ≠ 0 then 1 else 0
end

