-- ==== Sys2Proof/Laws/State.lean ====
section
/-! SUPPORT. One lemma per field for every named update of the state. -/

namespace Sys2Proof.Machine

@[simp] theorem advance_ck (s : State) : (advance s).ck = s.ck := rfl
@[simp] theorem advance_rg (s : State) : (advance s).rg = s.rg := rfl
@[simp] theorem advance_inFlight (s : State) : (advance s).inFlight = s.inFlight := rfl
@[simp] theorem advance_held (s : State) : (advance s).held = s.held := rfl
@[simp] theorem advance_inputs (s : State) : (advance s).inputs = s.inputs.tail := rfl
@[simp] theorem advance_edge (s : State) : (advance s).edge = s.edge + 1 := rfl

@[simp] theorem resetEdge_ck (s : State) : (resetEdge s).ck = ckReset := rfl
@[simp] theorem resetEdge_rg (s : State) : (resetEdge s).rg = rgReset := rfl
@[simp] theorem resetEdge_inFlight (s : State) : (resetEdge s).inFlight = none := rfl
@[simp] theorem resetEdge_held (s : State) : (resetEdge s).held = unaccepted (pins s) := rfl
@[simp] theorem resetEdge_inputs (s : State) : (resetEdge s).inputs = s.inputs.tail := rfl
@[simp] theorem resetEdge_edge (s : State) : (resetEdge s).edge = s.edge + 1 := rfl

@[simp] theorem inFlightEdge_ck (s : State) : (inFlightEdge s).ck = s.ck := rfl
@[simp] theorem inFlightEdge_rg (s : State) : (inFlightEdge s).rg = s.rg := rfl
@[simp] theorem inFlightEdge_inFlight (s : State) : (inFlightEdge s).inFlight = if offered s && (pins s).rspReady then none else s.inFlight := rfl
@[simp] theorem inFlightEdge_held (s : State) : (inFlightEdge s).held = unaccepted (pins s) := rfl
@[simp] theorem inFlightEdge_inputs (s : State) : (inFlightEdge s).inputs = s.inputs.tail := rfl
@[simp] theorem inFlightEdge_edge (s : State) : (inFlightEdge s).edge = s.edge + 1 := rfl

@[simp] theorem idleEdge_ck (s : State) : (idleEdge s).ck = s.ck := rfl
@[simp] theorem idleEdge_rg (s : State) : (idleEdge s).rg = s.rg := rfl
@[simp] theorem idleEdge_inFlight (s : State) : (idleEdge s).inFlight = s.inFlight := rfl
@[simp] theorem idleEdge_held (s : State) : (idleEdge s).held = none := rfl
@[simp] theorem idleEdge_inputs (s : State) : (idleEdge s).inputs = s.inputs.tail := rfl
@[simp] theorem idleEdge_edge (s : State) : (idleEdge s).edge = s.edge + 1 := rfl

@[simp] theorem State.withFetchWord_ck (s : State) (nbits w : Nat) :
    (s.withFetchWord nbits w).ck = s.ck := rfl
@[simp] theorem State.withFetchWord_rg (s : State) (nbits w : Nat) :
    (s.withFetchWord nbits w).rg = s.rg := rfl
@[simp] theorem State.withFetchWord_inFlight (s : State) (nbits w : Nat) :
    (s.withFetchWord nbits w).inFlight = none := rfl
@[simp] theorem State.withFetchWord_held (s : State) (nbits w : Nat) :
    (s.withFetchWord nbits w).held = none := rfl
@[simp] theorem State.withFetchWord_inputs (s : State) (nbits w : Nat) :
    (s.withFetchWord nbits w).inputs = ⟨false, true, BitVec.ofNat 16 (w % 2 ^ nbits), false⟩ :: s.inputs := rfl
@[simp] theorem State.withFetchWord_edge (s : State) (nbits w : Nat) :
    (s.withFetchWord nbits w).edge = s.edge := rfl

@[simp] theorem reset_ck : State.reset.ck = ckReset := rfl
@[simp] theorem reset_rg : State.reset.rg = rgReset := rfl
@[simp] theorem reset_inFlight : State.reset.inFlight = none := rfl
@[simp] theorem reset_held : State.reset.held = none := rfl
@[simp] theorem reset_inputs : State.reset.inputs = [] := rfl
@[simp] theorem reset_edge : State.reset.edge = 0 := rfl

@[simp] theorem emptyBuffer_acc (u : RgUnit) : (emptyBuffer u).acc = 0#15 := rfl
@[simp] theorem emptyBuffer_cnt (u : RgUnit) : (emptyBuffer u).cnt = 0#4 := rfl
@[simp] theorem emptyBuffer_inW (u : RgUnit) : (emptyBuffer u).inW = u.inW := rfl
@[simp] theorem emptyBuffer_outW (u : RgUnit) : (emptyBuffer u).outW = u.outW := rfl
@[simp] theorem emptyBuffer_pad (u : RgUnit) : (emptyBuffer u).pad = u.pad := rfl
@[simp] theorem emptyBuffer_err (u : RgUnit) : (emptyBuffer u).err = u.err := rfl

end Sys2Proof.Machine
end

