-- ==== Sys2Proof/Laws/Ops.lean ====
section
/-! SUPPORT. What each shared operation can do, said once. -/

namespace Sys2Proof.Machine

/-! ### Responses and errors -/

/-- Issuing a response answers a next state exactly when its status is not reserved, and only puts the response in flight. -/
theorem respond_eq_next {r : Response} {s t : State} :
    respond r s = .next t ↔ r.status.toNat < 8 ∧ t = { s with inFlight := some ⟨r, s.edge⟩ } := by
  unfold respond reservedStatusCode
  by_cases h : r.status.toNat < 8
  · have : ¬ (8#4 ≤ r.status) := by simp [BitVec.le_def]; omega
    simp [this, h, eq_comm]
  · have : 8#4 ≤ r.status := by simp [BitVec.le_def]; omega
    simp [this, h]

/-- A response whose status is reserved stops the model, and no other does. -/
theorem respond_eq_fault {r : Response} {s : State} {x : Fault} :
    respond r s = .fault x ↔ 8 ≤ r.status.toNat := by
  unfold respond reservedStatusCode
  cases x
  by_cases h : 8 ≤ r.status.toNat
  · have : 8#4 ≤ r.status := by simpa [BitVec.le_def] using h
    simp [this, h]
  · have : ¬ (8#4 ≤ r.status) := by simpa [BitVec.le_def] using h
    simp [this, h]

/-- Issuing a response is never refused. -/
theorem respond_ne_refused {r : Response} {s : State} {x : Refusal} : respond r s ≠ .refused x := by
  unfold respond
  split <;> simp

/-- Every status the block names is a code below 8. -/
theorem statusCode_lt (st : Status) : (statusCode st).toNat < 8 := by
  cases st <;> decide

/-- The code of a status is zero for OK only. -/
theorem statusCode_eq_zero {st : Status} : statusCode st = 0#4 ↔ st = .ok := by
  cases st <;> decide

@[simp] theorem latched_iff (err : Code) : latched err = true ↔ err ≠ 0#4 := by
  simp [latched]

@[simp] theorem latch_free (st : Status) : latch 0#4 st = statusCode st := by
  simp [latch]

/-- The first error wins. -/
theorem latch_taken {err : Code} (h : err ≠ 0#4) (st : Status) : latch err st = err := by
  simp [latch, h]

@[simp] theorem raiseCk_acc (st : Status) (u : CkUnit) : (raiseCk st u).1.acc = u.acc := rfl
@[simp] theorem raiseCk_err (st : Status) (u : CkUnit) : (raiseCk st u).1.err = latch u.err st := rfl
@[simp] theorem raiseCk_rsp (st : Status) (u : CkUnit) : (raiseCk st u).2 = ⟨statusCode st, 0#4, 0#64⟩ := rfl

@[simp] theorem raiseRg_unit (st : Status) (u : RgUnit) : (raiseRg st u).1 = { u with err := latch u.err st } := rfl
@[simp] theorem raiseRg_rsp (st : Status) (u : RgUnit) : (raiseRg st u).2 = ⟨statusCode st, 0#4, 0#64⟩ := rfl

/-- A unit without a latched error runs its blocked commands. -/
theorem blockedCk_free {f : CkUnit → CkUnit × Response} {u : CkUnit} (h : u.err = 0#4) : blockedCk f u = f u := by
  simp [blockedCk, latched, h]

/-- A latched unit answers the latch and writes nothing. -/
theorem blockedCk_latched {f : CkUnit → CkUnit × Response} {u : CkUnit} (h : u.err ≠ 0#4) :
    blockedCk f u = (u, ⟨u.err, 0#4, 0#64⟩) := by
  simp [blockedCk, h, codeResponse]

/-- A unit without a latched error runs its blocked commands. -/
theorem blockedRg_free {f : RgUnit → RgUnit × Response} {u : RgUnit} (h : u.err = 0#4) : blockedRg f u = f u := by
  simp [blockedRg, latched, h]

/-- A latched unit answers the latch and writes nothing. -/
theorem blockedRg_latched {f : RgUnit → RgUnit × Response} {u : RgUnit} (h : u.err ≠ 0#4) :
    blockedRg f u = (u, ⟨u.err, 0#4, 0#64⟩) := by
  simp [blockedRg, h, codeResponse]

/-! ### Running a command on its unit -/

/-- A CK command changes the CK unit and the response in flight, and nothing else. -/
theorem onCk_eq_next {f : CkUnit → CkUnit × Response} {s t : State} :
    onCk f s = .next t ↔
      (f s.ck).2.status.toNat < 8 ∧ t = { s with ck := (f s.ck).1, inFlight := some ⟨(f s.ck).2, s.edge⟩ } :=
  respond_eq_next

/-- An RG command changes the RG unit and the response in flight, and nothing else. -/
theorem onRg_eq_next {f : RgUnit → RgUnit × Response} {s t : State} :
    onRg f s = .next t ↔
      (f s.rg).2.status.toNat < 8 ∧ t = { s with rg := (f s.rg).1, inFlight := some ⟨(f s.rg).2, s.edge⟩ } :=
  respond_eq_next

/-- Every command is executed on its unit. -/
theorem exec_on_unit (i : Instr) :
    (i.unit = .ck ∧ ∃ f, ∀ s, exec i s = onCk f s) ∨ (i.unit = .rg ∧ ∃ f, ∀ s, exec i s = onRg f s) := by
  cases i
  case ckInit => exact .inl ⟨rfl, startChecksum, fun _ => rfl⟩
  case ckRead => exact .inl ⟨rfl, showCk, fun _ => rfl⟩
  case rgClr => exact .inr ⟨rfl, clearRg, fun _ => rfl⟩
  case rgRead => exact .inr ⟨rfl, showRg, fun _ => rfl⟩
  case ckHrph | ckHrpl | ckFold | ckFoldc | ckCheck => exact .inl ⟨rfl, _, fun _ => rfl⟩
  case rgCfg | rgPush | rgFin => exact .inr ⟨rfl, _, fun _ => rfl⟩

/-- Executing a command is never refused. -/
theorem exec_ne_refused (i : Instr) (s : State) (x : Refusal) : exec i s ≠ .refused x := by
  obtain ⟨-, f, h⟩ | ⟨-, f, h⟩ := exec_on_unit i <;>
    · rw [h]; exact respond_ne_refused

/-! ### Functions of the two units -/

/-- A fold keeps the latch and answers the new accumulator. -/
theorem foldAndShow_eq (v : Sym) (u : CkUnit) :
    foldAndShow v u = (⟨foldSymbol u.acc v, u.err⟩, ⟨0#4, 0#4, zext64 (foldSymbol u.acc v)⟩) := rfl

/-- A prefix character in range is folded. -/
theorem foldPrefixChar_legal {part : Byte → Sym} {ch : Byte} (h : prefixChar ch = true) (u : CkUnit) :
    foldPrefixChar part ch u = foldAndShow (part ch) u := by
  simp [foldPrefixChar, h]

/-- A prefix character out of range raises PREFIX. -/
theorem foldPrefixChar_illegal {part : Byte → Sym} {ch : Byte} (h : prefixChar ch = false) (u : CkUnit) :
    foldPrefixChar part ch u = raiseCk .badPrefix u := by
  simp [foldPrefixChar, h]

/-- The loop with no turn left emits nothing. -/
@[simp] theorem emitGroups_zero (a outW n : Nat) : emitGroups a outW 0 n = ([], n) := rfl

/-- The loop ends when fewer than `outW` bits remain. -/
theorem emitGroups_short {a outW turns n : Nat} (h : n < outW) : emitGroups a outW turns n = ([], n) := by
  cases turns with
  | zero => rfl
  | succ k => simp [emitGroups, Nat.not_le.mpr h]

/-- One turn of the loop. -/
theorem emitGroups_succ {a outW turns n : Nat} (h : outW ≤ n) :
    emitGroups a outW (turns + 1) n =
      (BitVec.ofNat 8 ((a >>> (n - outW)) &&& mask outW) :: (emitGroups a outW turns (n - outW)).1,
        (emitGroups a outW turns (n - outW)).2) := by
  simp [emitGroups, h]

/-- Masking is the remainder by a power of two. -/
theorem and_mask (x n : Nat) : x &&& mask n = x % 2 ^ n := by
  simp [mask, Nat.and_two_pow_sub_one_eq_mod]

/-! ### The ports -/

@[simp] theorem pins_cons (s : State) (p : PortIn) (ps : List PortIn) : pins { s with inputs := p :: ps } = p := rfl

/-- An offer leaves its word to be held. -/
theorem unaccepted_eq_some {p : PortIn} {w : Word} : unaccepted p = some w ↔ p.cmdValid = true ∧ p.cmdWord = w := by
  unfold unaccepted
  split <;> simp_all

/-- The handshake is intact exactly when every held word is offered again. -/
theorem handshakeBroken_eq_false {s : State} : handshakeBroken (pins s) s = false ↔ OfferKept s := by
  unfold handshakeBroken OfferKept unaccepted
  cases s.held with
  | none => simp
  | some w =>
    cases (pins s).cmdValid
    · simp
    · simp [@eq_comm _ w]

/-- A host that keeps its offers over the coming edges keeps the one it holds at the next edge. -/
theorem offersKept_cons {s : State} {p : PortIn} {rest : List PortIn} (h : s.inputs = p :: rest) (ps : List PortIn) :
    offersKept s.held (p :: ps) = true ↔ OfferKept s ∧ offersKept (unaccepted p) ps = true := by
  have hp : pins s = p := by simp [pins, h]
  rw [← handshakeBroken_eq_false, hp]
  simp only [offersKept, handshakeBroken, Bool.and_eq_true]
  cases s.held <;> simp

/-- The response in flight is offered from its latency on. -/
theorem offered_iff {s : State} {f : InFlight} (h : s.inFlight = some f) :
    offered s = true ↔ f.since + Config.extraLatency f.since ≤ s.edge := by
  simp [offered, h]

/-- Nothing is offered by an idle block. -/
theorem offered_idle {s : State} (h : s.inFlight = none) : offered s = false := by
  simp [offered, h]

/-- `cmd_ready`: not in reset and no command in flight. -/
theorem portOut_cmdReady (s : State) : (portOut s).cmdReady = (!(pins s).rst && s.inFlight.isNone) := by
  unfold portOut
  cases (pins s).rst <;> cases s.inFlight <;> simp
  split <;> rfl

/-- `rsp_valid`: not in reset and a response offered. -/
theorem portOut_rspValid (s : State) : (portOut s).rspValid = (!(pins s).rst && offered s) := by
  unfold portOut
  cases (pins s).rst <;> cases h : s.inFlight <;> simp [offered_idle, h]
  split <;> simp_all

/-- While `rsp_valid = 1` the response pins show the response in flight. -/
theorem portOut_response {s : State} {f : InFlight} (h : s.inFlight = some f) (hv : (portOut s).rspValid = true) :
    (portOut s).rspStatus = f.rsp.status ∧ (portOut s).rspCount = f.rsp.count ∧ (portOut s).rspData = f.rsp.data := by
  rw [portOut_rspValid] at hv
  simp only [Bool.and_eq_true, Bool.not_eq_true'] at hv
  simp [portOut, h, hv.1, hv.2]

end Sys2Proof.Machine
end

