-- ==== Sys2Proof/Laws/PerInstr.lean ====
section
/-! SUPPORT. Facts about every command as syntax, one lemma per constructor of `Instr`. -/

namespace Sys2Proof.Laws

/-- The word of a command is a word of its own row of the opcode map (spec 30_encoding R58). -/
def EncodedRow.Statement (i : Instr) : Prop :=
  matchesRow (encode i) i.opcode = true

theorem EncodedRow.ckInit : EncodedRow.Statement .ckInit := by unfold EncodedRow.Statement; decide
theorem EncodedRow.ckRead : EncodedRow.Statement .ckRead := by unfold EncodedRow.Statement; decide
theorem EncodedRow.rgClr : EncodedRow.Statement .rgClr := by unfold EncodedRow.Statement; decide
theorem EncodedRow.rgFin : EncodedRow.Statement .rgFin := by unfold EncodedRow.Statement; decide
theorem EncodedRow.rgRead : EncodedRow.Statement .rgRead := by unfold EncodedRow.Statement; decide

theorem EncodedRow.ckHrph (ch : Byte) : EncodedRow.Statement (.ckHrph ch) := by
  unfold EncodedRow.Statement; revert ch; decide
theorem EncodedRow.ckHrpl (ch : Byte) : EncodedRow.Statement (.ckHrpl ch) := by
  unfold EncodedRow.Statement; revert ch; decide
theorem EncodedRow.ckFold (v : Sym) : EncodedRow.Statement (.ckFold v) := by
  unfold EncodedRow.Statement; revert v; decide
theorem EncodedRow.ckFoldc (ch : Byte) : EncodedRow.Statement (.ckFoldc ch) := by
  unfold EncodedRow.Statement; revert ch; decide
theorem EncodedRow.ckCheck (var : Variant) : EncodedRow.Statement (.ckCheck var) := by
  unfold EncodedRow.Statement; cases var <;> decide
theorem EncodedRow.rgCfg (iw ow : BitVec 4) (padf : BitVec 1) : EncodedRow.Statement (.rgCfg iw ow padf) := by
  unfold EncodedRow.Statement; revert iw ow padf; decide
theorem EncodedRow.rgPush (sym : Byte) : EncodedRow.Statement (.rgPush sym) := by
  unfold EncodedRow.Statement; revert sym; decide

end Sys2Proof.Laws
end

