-- ==== Sys2Proof/Laws/Step.lean ====
section
/-! SUPPORT. What one edge can do. -/

namespace Sys2Proof.Machine

/-- Every way a step answers a next state, with the conditions of each. -/
theorem step_next_cases {s t : State} (h : step s = .next t) :
    ((pins s).rst = true ∧ t = resetEdge s) ∨
      ((pins s).rst = false ∧ OfferKept s ∧
        ((s.inFlight.isSome = true ∧ t = inFlightEdge s) ∨
          (s.inFlight = none ∧ (pins s).cmdValid = true ∧ acceptWord (pins s).cmdWord (idleEdge s) = .next t) ∨
          (s.inFlight = none ∧ (pins s).cmdValid = false ∧ t = idleEdge s))) := by
  unfold step at h
  by_cases hr : (pins s).rst = true
  · left
    simp only [hr, if_true, Host.Outcome.next.injEq] at h
    exact ⟨hr, h.symm⟩
  · right
    by_cases hb : handshakeBroken (pins s) s = true
    · simp [hr, hb] at h
    · refine ⟨by simpa using hr, handshakeBroken_eq_false.mp (by simpa using hb), ?_⟩
      by_cases hf : s.inFlight.isSome = true
      · simp only [hr, hb, hf, if_true, if_false, Host.Outcome.next.injEq, Bool.false_eq_true] at h
        exact .inl ⟨hf, h.symm⟩
      · have hn : s.inFlight = none := by simpa using hf
        right
        by_cases hv : (pins s).cmdValid = true
        · simp only [hr, hb, hf, hv, if_true, if_false, Bool.false_eq_true] at h
          exact .inl ⟨hn, hv, h⟩
        · simp only [hr, hb, hf, hv, if_false, Host.Outcome.next.injEq, Bool.false_eq_true] at h
          exact .inr ⟨hn, by simpa using hv, h.symm⟩

/-- Accepting a word runs the command it decodes to. -/
theorem acceptWord_command {w : Word} {i : Instr} (h : decode w = .command i) (s : State) : acceptWord w s = exec i s := by
  simp [acceptWord, h]

/-- Accepting a word that is no command raises ILLEGAL. -/
theorem acceptWord_illegal {w : Word} {k : IllegalWord} (h : decode w = .illegal k) (s : State) :
    acceptWord w s = .next { s with inFlight := some ⟨⟨1#4, 0#4, 0#64⟩, s.edge⟩ } := by
  simp only [acceptWord, h, raiseIllegal]
  exact respond_eq_next.mpr ⟨by decide, rfl⟩

/-- A transaction is the acceptance of a word with its response taken. -/
theorem transact_eq_some {w : Word} {s u : State} {r : Response} :
    transact w s = some (u, r) ↔
      ∃ t f, acceptWord w s = .next t ∧ t.inFlight = some f ∧ f.rsp = r ∧ u = { t with inFlight := none } := by
  unfold transact
  cases acceptWord w s with
  | next t => cases h : t.inFlight <;> simp [h, eq_comm, and_comm]
  | fault x => simp
  | refused x => simp

@[simp] theorem transactAll_nil (s : State) : transactAll [] s = some (s, []) := rfl

/-- The first transaction of a sequence. -/
theorem transactAll_cons {w : Word} {ws : List Word} {s t : State} {r : Response} (h : transact w s = some (t, r)) :
    transactAll (w :: ws) s = (transactAll ws t).map fun p => (p.1, r :: p.2) := by
  simp only [transactAll, h]
  cases transactAll ws t <;> rfl

end Sys2Proof.Machine
end

