-- ==== Sys2Proof/Tests/Slice0.lean ====
section
/-! SUPPORT. Tests. Expected values are taken from spec 95_test_vectors (the vector is named), from the encoding tables of 30_encoding, or
from the examples of the command's rule. The witnesses show that the hypotheses of the statements can be met together. -/

namespace Sys2Proof.Tests

open Sys2Proof.Machine

/-- The reset state with the CK registers `acc`, `err`. -/
def withCk (acc : Acc) (err : Code) : State := { State.reset with ck := ⟨acc, err⟩ }

/-- The reset state with the given RG registers. -/
def withRg (acc : BitVec 15) (cnt inW outW : BitVec 4) (pad : BitVec 1) (err : Code) : State :=
  { State.reset with rg := ⟨acc, cnt, inW, outW, pad, err⟩ }

/-- The reset state at whose next edge the host drives the given pins. -/
def withPins (rst cmdValid : Bool) (word : Word) (rspReady : Bool) : State :=
  { State.reset with inputs := [⟨rst, cmdValid, word, rspReady⟩] }

/-- The reset state with a response in flight that is offered from the present edge on, whatever the latency. -/
def offering (p : PortIn) : State :=
  { State.reset with inFlight := some ⟨⟨0#4, 0#4, 1#64⟩, 0⟩, edge := Config.extraLatency 0, inputs := [p, p] }

/-- The registers and the response after a command. -/
def after (o : Host.Outcome State Fault Refusal) : Option (CkUnit × RgUnit × Response) :=
  match o with
  | .next t => t.inFlight.map fun f => (t.ck, t.rg, f.rsp)
  | .fault _ => none
  | .refused _ => none

/-! ### Well-formedness: an ill-formed line for each check -/

theorem test_asm_refuses_hrph_256 : asmWellFormed (.ckHrph 256) = false := by decide
theorem test_asm_refuses_hrpl_256 : asmWellFormed (.ckHrpl 256) = false := by decide
theorem test_asm_refuses_fold_32 : asmWellFormed (.ckFold 32) = false := by decide
theorem test_asm_refuses_foldc_256 : asmWellFormed (.ckFoldc 256) = false := by decide
theorem test_asm_refuses_check_2 : asmWellFormed (.ckCheck 2) = false := by decide
theorem test_asm_refuses_cfg_iw_16 : asmWellFormed (.rgCfg 16 8 0) = false := by decide
theorem test_asm_refuses_cfg_ow_16 : asmWellFormed (.rgCfg 5 16 0) = false := by decide
theorem test_asm_refuses_cfg_pad_2 : asmWellFormed (.rgCfg 5 8 2) = false := by decide
theorem test_asm_refuses_push_256 : asmWellFormed (.rgPush 256) = false := by decide
theorem test_asm_refuses_hrp_256 : asmWellFormed (.ckHrp [98, 256]) = false := by decide
theorem test_asm_refuses_data_256 : asmWellFormed (.ckData [256]) = false := by decide
theorem test_asm_accepts_cfg_0_15 : assemble (.rgCfg 0 15 1) = some [0x81F0#16] := by decide

/-! ### Decoding: one word of every row, its bits written out from R56 -/

theorem test_decode_ck_init : decode 0b0001000000000000#16 = .command .ckInit := by decide
theorem test_decode_ck_hrph : decode 0b0010000001100010#16 = .command (.ckHrph 0x62#8) := by decide
theorem test_decode_ck_hrpl : decode 0b0011000001000000#16 = .command (.ckHrpl 0x40#8) := by decide
theorem test_decode_ck_fold : decode 0b0100000000011101#16 = .command (.ckFold 29#5) := by decide
theorem test_decode_ck_foldc : decode 0b0101000001101100#16 = .command (.ckFoldc 0x6c#8) := by decide
theorem test_decode_ck_check : decode 0b0110000000000001#16 = .command (.ckCheck .bech32m) := by decide
theorem test_decode_ck_read : decode 0b0111000000000000#16 = .command .ckRead := by decide
theorem test_decode_rg_cfg : decode 0b1000000101011000#16 = .command (.rgCfg 8#4 5#4 1#1) := by decide
theorem test_decode_rg_clr : decode 0b1001000000000000#16 = .command .rgClr := by decide
theorem test_decode_rg_push : decode 0b1010000010100101#16 = .command (.rgPush 165#8) := by decide
theorem test_decode_rg_fin : decode 0b1011000000000000#16 = .command .rgFin := by decide
theorem test_decode_rg_read : decode 0b1100000000000000#16 = .command .rgRead := by decide
/-- V-DEC-1 to V-DEC-8. -/
theorem test_decode_illegal :
    [0x0000#16, 0xD000#16, 0xFFFF#16, 0x1001#16, 0x2100#16, 0x4020#16, 0x6002#16, 0x8200#16].map decode =
      [.illegal .reservedOpcode, .illegal .reservedOpcode, .illegal .reservedOpcode, .illegal .reservedBits,
        .illegal .reservedBits, .illegal .reservedBits, .illegal .reservedBits, .illegal .reservedBits] := by decide
theorem test_table_word : decodeTableWord 16 0xA014 = some (.rgPush 20#8) ∧ decodeTableWord 16 0 = none := by decide

/-! ### Commands: vectors of 95 L2 -/

/-- V-CK-1. -/
theorem test_ck_init : after (exec .ckInit (withCk 0x2bc830a3#30 4#4)) = some (⟨1#30, 0#4⟩, rgReset, ⟨0#4, 0#4, 1#64⟩) := by decide
/-- V-CK-2. -/
theorem test_ck_hrph_b : after (exec (.ckHrph 0x62#8) State.reset) = some (⟨0x23#30, 0#4⟩, rgReset, ⟨0#4, 0#4, 0x23#64⟩) := by decide
/-- V-CK-6. -/
theorem test_ck_hrph_127 : after (exec (.ckHrph 0x7f#8) State.reset) = some (⟨1#30, 3#4⟩, rgReset, ⟨3#4, 0#4, 0#64⟩) := by decide
/-- V-CK-8. -/
theorem test_ck_hrpl_b : after (exec (.ckHrpl 0x62#8) (withCk 0x8c60#30 0#4)) =
    some (⟨0x118c02#30, 0#4⟩, rgReset, ⟨0#4, 0#4, 0x118c02#64⟩) := by decide
/-- V-CK-11. -/
theorem test_ck_fold_separator : after (exec (.ckFold 0#5) (withCk 0x463#30 0#4)) =
    some (⟨0x8c60#30, 0#4⟩, rgReset, ⟨0#4, 0#4, 0x8c60#64⟩) := by decide
/-- V-CK-24. -/
theorem test_ck_fold_blocked : after (exec (.ckFold 7#5) (withCk 0x23#30 3#4)) =
    some (⟨0x23#30, 3#4⟩, rgReset, ⟨3#4, 0#4, 0#64⟩) := by decide
/-- V-CK-14. -/
theorem test_ck_foldc_l : after (exec (.ckFoldc 0x6c#8) (withCk 0x2318043#30 0#4)) =
    some (⟨0x3d5a5fcd#30, 0#4⟩, rgReset, ⟨0#4, 0#4, 0x1f3d5a5fcd#64⟩) := by decide
/-- V-CK-16. -/
theorem test_ck_foldc_upper : after (exec (.ckFoldc 0x51#8) (withCk 0x2318043#30 0#4)) =
    some (⟨0x2318043#30, 4#4⟩, rgReset, ⟨4#4, 0#4, 0#64⟩) := by decide
/-- V-CK-20. -/
theorem test_ck_check_mismatch : after (exec (.ckCheck .bech32m) State.reset) =
    some (⟨1#30, 0#4⟩, rgReset, ⟨5#4, 0#4, 1#64⟩) := by decide
/-- V-CK-21. -/
theorem test_ck_check_match : after (exec (.ckCheck .bech32m) (withCk 0x2bc830a3#30 0#4)) =
    some (⟨0x2bc830a3#30, 0#4⟩, rgReset, ⟨0#4, 0#4, 0x2bc830a3#64⟩) := by decide
/-- V-CK-23. -/
theorem test_ck_read : after (exec .ckRead (withCk 0x23#30 3#4)) =
    some (⟨0x23#30, 3#4⟩, rgReset, ⟨0#4, 0#4, 0x300000023#64⟩) := by decide
/-- V-RG-1. -/
theorem test_rg_cfg : after (exec (.rgCfg 8#4 5#4 1#1) (withRg 3#15 2#4 5#4 8#4 0#1 7#4)) =
    some (ckReset, ⟨0#15, 0#4, 8#4, 5#4, 1#1, 0#4⟩, ⟨0#4, 0#4, 0#64⟩) := by decide
/-- V-RG-6. -/
theorem test_rg_cfg_illegal_keeps_latch : after (exec (.rgCfg 0#4 8#4 0#1) (withRg 0#15 0#4 5#4 8#4 0#1 6#4)) =
    some (ckReset, ⟨0#15, 0#4, 5#4, 8#4, 0#1, 6#4⟩, ⟨2#4, 0#4, 0#64⟩) := by decide
/-- V-RG-7. -/
theorem test_rg_clr : after (exec .rgClr (withRg 3#15 2#4 5#4 8#4 0#1 7#4)) =
    some (ckReset, ⟨0#15, 0#4, 5#4, 8#4, 0#1, 0#4⟩, ⟨0#4, 0#4, 0#64⟩) := by decide
/-- V-RG-9. -/
theorem test_rg_push : after (exec (.rgPush 20#8) (withRg 14#15 5#4 5#4 8#4 0#1 0#4)) =
    some (ckReset, ⟨0#15, 2#4, 5#4, 8#4, 0#1, 0#4⟩, ⟨0#4, 1#4, 0x75#64⟩) := by decide
/-- V-RG-13, its second command. -/
theorem test_rg_push_eight_groups : after (exec (.rgPush 165#8) (withRg 0#15 0#4 8#4 1#4 0#1 0#4)) =
    some (ckReset, ⟨0#15, 0#4, 8#4, 1#4, 0#1, 0#4⟩, ⟨0#4, 8#4, 0x100010000010001#64⟩) := by decide
/-- V-RG-15, its last command. -/
theorem test_rg_fin_padded : after (exec .rgFin (withRg 7#15 3#4 8#4 5#4 1#1 0#4)) =
    some (ckReset, ⟨0#15, 0#4, 8#4, 5#4, 1#1, 0#4⟩, ⟨0#4, 1#4, 0x1c#64⟩) := by decide
/-- V-RG-17, its last command. -/
theorem test_rg_fin_excess : after (exec .rgFin (withRg 31#15 5#4 5#4 8#4 0#1 0#4)) =
    some (ckReset, ⟨31#15, 5#4, 5#4, 8#4, 0#1, 6#4⟩, ⟨6#4, 0#4, 0#64⟩) := by decide
/-- V-RG-22. -/
theorem test_rg_read : after (exec .rgRead (withRg 3#15 2#4 5#4 8#4 0#1 7#4)) =
    some (ckReset, ⟨3#15, 2#4, 5#4, 8#4, 0#1, 7#4⟩, ⟨0#4, 0#4, 0x7085020003#64⟩) := by decide
/-- V-DEC-9: ILLEGAL beats the latch. -/
theorem test_illegal_beats_latch : after (acceptWord 0x6100#16 (withCk 1#30 3#4)) =
    some (⟨1#30, 3#4⟩, rgReset, ⟨1#4, 0#4, 0#64⟩) := by decide
/-- V-DEC-10: the latch beats OPERAND. -/
theorem test_latch_beats_operand : after (acceptWord 0xA0FF#16 (withRg 0#15 0#4 5#4 8#4 0#1 6#4)) =
    some (ckReset, ⟨0#15, 0#4, 5#4, 8#4, 0#1, 6#4⟩, ⟨6#4, 0#4, 0#64⟩) := by decide
/-- R76's example with all five generators. -/
theorem test_step_all_generators : polymodStep 0x3e000000#30 = 0x14cd914b#30 := by decide
/-- R75's string, `q` first. -/
theorem test_alphabet_string :
    "qpzry9x8gf2tvdw0s3jn54khce6mua7l".toList.map (fun c => BitVec.ofNat 8 c.toNat) = alphabet := by decide

/-! ### Edges -/

theorem test_step_runs_offered_word : after (step (State.reset.withFetchWord 16 0x2062)) =
    some (⟨0x23#30, 0#4⟩, rgReset, ⟨0#4, 0#4, 0x23#64⟩) := by decide
theorem test_step_illegal_word : after (step (State.reset.withFetchWord 16 0)) =
    some (ckReset, rgReset, ⟨1#4, 0#4, 0#64⟩) := by decide

/-! ### Witnesses: the hypotheses of the statements, met together -/

theorem witness_EncodeOfDecoded : ∃ w i, decode w = .command i := ⟨0x2062#16, .ckHrph 0x62#8, by decide⟩

/-- Each clause of the reserved words at its boundary, and the last word before it, which is a command. -/
theorem witness_IllegalWordsAnswerIllegal :
    (0x0000#16).toNat / 2 ^ 12 = 0x0 ∧ (0xD000#16).toNat / 2 ^ 12 = 0xD ∧ (0xE000#16).toNat / 2 ^ 12 = 0xE ∧
      (0xFFFF#16).toNat / 2 ^ 12 = 0xF ∧ (0x7001#16).toNat % 2 ^ 12 ≠ 0 ∧
      [0x1001#16, 0x7001#16, 0x9001#16, 0xB001#16, 0xC001#16, 0x2100#16, 0x3100#16, 0x5100#16, 0xA100#16, 0x4020#16, 0x6002#16,
        0x8200#16].all (fun w => decode w = .illegal .reservedBits) = true ∧
      [0x1000#16, 0x7000#16, 0x9000#16, 0xB000#16, 0xC000#16, 0x20FF#16, 0x30FF#16, 0x50FF#16, 0xA0FF#16, 0x401F#16, 0x6001#16,
        0x81FF#16].all (fun w => decode w ≠ .illegal .reservedBits) = true := by decide

/-- Both sides of every operand range. -/
theorem witness_AssemblerWords :
    assemble (.ckHrph 255) = some [0x20FF#16] ∧ assemble (.ckHrph 256) = none ∧
      assemble (.ckHrpl 255) = some [0x30FF#16] ∧ assemble (.ckHrpl 256) = none ∧
      assemble (.ckFold 31) = some [0x401F#16] ∧ assemble (.ckFold 32) = none ∧
      assemble (.ckFoldc 255) = some [0x50FF#16] ∧ assemble (.ckFoldc 256) = none ∧
      assemble (.ckCheck 1) = some [0x6001#16] ∧ assemble (.ckCheck 2) = none ∧
      assemble (.rgCfg 15 15 1) = some [0x81FF#16] ∧ assemble (.rgCfg 16 15 1) = none ∧
      assemble (.rgPush 255) = some [0xA0FF#16] ∧ assemble (.rgPush 256) = none := by decide

theorem witness_PseudoInstructionExpansions : ∀ ch ∈ [0, 98, 255], ch ≤ 255 := by decide

theorem witness_StepRunsDecodedCommand :
    let s := withPins false true 0x2062#16 false
    (pins s).rst = false ∧ (pins s).cmdValid = true ∧ s.inFlight = none ∧ OfferKept s ∧
      decode (pins s).cmdWord = .command (.ckHrph 0x62#8) := by decide

theorem witness_ResetEdgeResetsEverything : (pins (withPins true true 0x1000#16 true)).rst = true := by decide

/-- An accepting edge; an idle edge and a reset edge, which accept nothing. -/
theorem witness_CommandTransfer :
    (OfferKept (withPins false true 0x1000#16 false) ∧ (pins (withPins false true 0x1000#16 false)).rst = false ∧
      (pins (withPins false true 0x1000#16 false)).cmdValid = true ∧
      (portOut (withPins false true 0x1000#16 false)).cmdReady = true) ∧
    (OfferKept (withPins false false 0x1000#16 false) ∧ (pins (withPins false false 0x1000#16 false)).cmdValid = false) ∧
    (OfferKept (withPins true true 0x1000#16 false) ∧ (pins (withPins true true 0x1000#16 false)).rst = true) := by decide

/-- An edge with a command in flight accepts nothing. -/
theorem witness_CommandTransfer_in_flight :
    OfferKept (offering ⟨false, true, 0x1000#16, false⟩) ∧
      (portOut (offering ⟨false, true, 0x1000#16, false⟩)).cmdReady = false :=
  ⟨.inl rfl, by rw [portOut_cmdReady]; rfl⟩

/-- A dropped offer and a changed one, without and with reset. -/
theorem witness_BrokenOfferHasNoStep :
    (let s : State := { withPins false false 0#16 false with held := some 0x1000#16 };
      s.held = some 0x1000#16 ∧ (pins s).cmdValid = false ∧ (pins s).rst = false) ∧
    (let s : State := { withPins true true 0x2000#16 false with held := some 0x1000#16 };
      s.held = some 0x1000#16 ∧ (pins s).cmdWord ≠ 0x1000#16 ∧ (pins s).rst = true) := by decide

/-- The latency being a free value, this state offers its response for every latency. -/
theorem offering_rspValid {p : PortIn} (h : p.rst = false) : (portOut (offering p)).rspValid = true := by
  rw [portOut_rspValid]
  simp [pins, offering, offered, h]

/-- A step of an offering state without reset answers a next state. -/
theorem offering_step {p : PortIn} (h : p.rst = false) : ∃ t, step (offering p) = .next t :=
  ⟨inFlightEdge (offering p), by
    have h1 : handshakeBroken (pins (offering p)) (offering p) = false := rfl
    have h2 : (pins (offering p)).rst = false := h
    have h3 : (offering p).inFlight.isSome = true := rfl
    simp [step, h1, h2, h3]⟩

/-- An accepting edge, and a response offered to a host that takes it and to one that does not. -/
theorem witness_ResponseTransfer :
    (acceptsAt (withPins false true 0x1000#16 false) = true ∧ ∃ t, step (withPins false true 0x1000#16 false) = .next t) ∧
    (∃ s t f, s.inFlight = some f ∧ (pins s).rst = false ∧ step s = .next t ∧ (portOut s).rspValid = true ∧
      (pins s).rspReady = true) ∧
    ∃ s t f, s.inFlight = some f ∧ (pins s).rst = false ∧ step s = .next t ∧ (portOut s).rspValid = true ∧
      (pins s).rspReady = false ∧ (pins t).rst = false := by
  refine ⟨⟨by decide, _, rfl⟩, ?_, ?_⟩
  · obtain ⟨t, ht⟩ := offering_step (p := ⟨false, false, 0#16, true⟩) rfl
    exact ⟨_, t, _, rfl, rfl, ht, offering_rspValid rfl, rfl⟩
  · refine ⟨offering ⟨false, false, 0#16, false⟩, inFlightEdge (offering ⟨false, false, 0#16, false⟩), _, rfl, rfl, ?_,
      offering_rspValid rfl, rfl, rfl⟩
    have h1 : handshakeBroken (pins (offering ⟨false, false, 0#16, false⟩)) (offering ⟨false, false, 0#16, false⟩) = false := rfl
    have h2 : (pins (offering ⟨false, false, 0#16, false⟩)).rst = false := rfl
    have h3 : (offering ⟨false, false, 0#16, false⟩).inFlight.isSome = true := rfl
    simp [step, h1, h2, h3]

theorem witness_OneCommandInFlight : ∃ s t f, s.inFlight = some f ∧
    (∀ p ∈ s.inputs, p.rst = false ∧ p.rspReady = false) ∧ Host.Core.run core 1 s = .next t := by
  obtain ⟨t, ht⟩ := offering_step (p := ⟨false, false, 0#16, false⟩) rfl
  refine ⟨offering ⟨false, false, 0#16, false⟩, t, _, rfl, by decide, ?_⟩
  have h : core.step (offering ⟨false, false, 0#16, false⟩) = .next t := ht
  simp [Host.Core.run, h]

/-- The reset state with a response in flight at a host that holds the word of CK_INIT. -/
def waiting : State :=
  { State.reset with inFlight := some ⟨⟨0#4, 0#4, 1#64⟩, 0⟩, held := some 0x1000#16 }

/-- Offering the same word at every edge keeps the offer. -/
theorem offersKept_replicate (k : Nat) :
    offersKept (some 0x1000#16) (List.replicate k ⟨false, true, 0x1000#16, true⟩) = true := by
  induction k with
  | zero => rfl
  | succ k ih =>
    rw [List.replicate_succ, offersKept]
    exact Bool.and_eq_true_iff.mpr ⟨by decide, ih⟩

/-- A host that holds its next word while it waits, for every number of edges. -/
theorem witness_EveryCommandCompletes : waiting.Inv ∧ waiting.inFlight = some ⟨⟨0#4, 0#4, 1#64⟩, 0⟩ ∧
    ∀ k, ∃ ps : List PortIn, ps.length = k + 1 ∧ (∀ p ∈ ps, p.rst = false ∧ p.rspReady = true) ∧
      offersKept waiting.held ps = true :=
  ⟨by decide, rfl, fun k => ⟨List.replicate (k + 1) ⟨false, true, 0x1000#16, true⟩, List.length_replicate,
    fun p hp => by rw [List.eq_of_mem_replicate hp]; exact ⟨rfl, rfl⟩, offersKept_replicate (k + 1)⟩⟩

theorem witness_StepStopsOnlyOnBrokenOffer :
    (State.reset.Inv ∧ OfferKept State.reset) ∧
      State.Inv { State.reset with held := some 0x1000#16 } ∧
      (pins { State.reset with held := some 0x1000#16 }).rst = false ∧
      ¬ OfferKept { State.reset with held := some 0x1000#16 } :=
  ⟨⟨by decide, by decide⟩, by decide, by decide, by decide⟩

theorem witness_StepKeepsInvariant : ∃ s t : State, s.Inv ∧ step s = .next t := ⟨State.reset, _, by decide, rfl⟩

/-- An idle edge and a reset edge. -/
theorem witness_OnlyResetChangesIdleRegisters :
    (∃ s t : State, step s = .next t ∧ acceptsAt s = false ∧ (pins s).rst = false) ∧
      ∃ s t : State, step s = .next t ∧ acceptsAt s = false ∧ (pins s).rst = true :=
  ⟨⟨State.reset, _, rfl, by decide, by decide⟩, withPins true true 0x1000#16 false, _, rfl, by decide, by decide⟩

theorem witness_EdgesRefineTransactions : ∃ s t : State, s.inFlight = none ∧ (∀ p ∈ s.inputs, p.rst = false) ∧
    Host.Core.run core 1 s = .next t :=
  ⟨withPins false true 0x2062#16 false, _, by decide, by decide, rfl⟩

theorem witness_EveryWordHasOneResponse : State.reset.Inv := by decide

/-- The largest accumulator to which no generator is applied. -/
theorem witness_FoldOfSmallAccumulator : (0x01ffffff#30).toNat < 2 ^ 25 ∧ ¬ (0x02000000#30).toNat < 2 ^ 25 := by decide

/-- The range of a prefix character at both ends, from outside and inside, and a latched unit. -/
theorem witness_HrphFoldsHighPart :
    (withCk 1#30 0#4).ck.err = 0#4 ∧ (33 ≤ (33#8).toNat ∧ (33#8).toNat ≤ 126) ∧ (33 ≤ (126#8).toNat ∧ (126#8).toNat ≤ 126) ∧
      (32#8).toNat < 33 ∧ 126 < (127#8).toNat ∧ (withCk 1#30 3#4).ck.err ≠ 0#4 ∧ (withCk 1#30 3#4).ck.Legal := by decide

theorem witness_HrplFoldsLowPart :
    (withCk 1#30 0#4).ck.err = 0#4 ∧ (33 ≤ (64#8).toNat ∧ (64#8).toNat ≤ 126) ∧ (32#8).toNat < 33 ∧ 126 < (255#8).toNat ∧
      (withCk 1#30 4#4).ck.err ≠ 0#4 ∧ (withCk 1#30 4#4).ck.Legal := by decide

theorem witness_FoldFoldsValue :
    (withCk 1#30 0#4).ck.err = 0#4 ∧ (withCk 1#30 4#4).ck.err ≠ 0#4 ∧ (withCk 1#30 4#4).ck.Legal := by decide

/-- The first and the last symbol of the alphabet, and a character outside it. -/
theorem witness_FoldcDecodesAndFolds :
    (withCk 1#30 0#4).ck.err = 0#4 ∧ alphaDec 0x71#8 = some 0#5 ∧ alphaDec 0x6c#8 = some 31#5 ∧ alphaDec 0x62#8 = none ∧
      (withCk 1#30 3#4).ck.err ≠ 0#4 ∧ (withCk 1#30 3#4).ck.Legal := by decide

theorem witness_CheckComparesWithTarget :
    (withCk 1#30 0#4).ck.err = 0#4 ∧ (withCk 1#30 4#4).ck.err ≠ 0#4 ∧ (withCk 1#30 4#4).ck.Legal := by decide

/-- Legal widths at both ends and the widths next to them. -/
theorem witness_CfgConfiguresOrRejects :
    ((1 ≤ (1#4).toNat ∧ (1#4).toNat ≤ 8) ∧ (1 ≤ (8#4).toNat ∧ (8#4).toNat ≤ 8)) ∧
      ¬ (1 ≤ (0#4).toNat ∧ (0#4).toNat ≤ 8) ∧ ¬ (1 ≤ (9#4).toNat ∧ (9#4).toNat ≤ 8) := by decide

/-- The largest symbol that fits and the smallest that does not, and a latched unit. -/
theorem witness_PushConsumesOrRejects :
    (let s := withRg 0#15 0#4 5#4 8#4 0#1 0#4;
      s.rg.err = 0#4 ∧ s.rg.Legal ∧ (31#8).toNat < 2 ^ s.rg.inW.toNat ∧ 2 ^ s.rg.inW.toNat ≤ (32#8).toNat) ∧
    (let s := withRg 0#15 0#4 5#4 8#4 0#1 2#4;
      s.rg.err ≠ 0#4 ∧ s.rg.Legal) := by decide

/-- Each clause of RG_FIN: padded with and without a leftover, excess at the boundary, nonzero, success, latched. -/
theorem witness_FinAppliesPaddingRule :
    (let s := withRg 7#15 3#4 8#4 5#4 1#1 0#4;
      s.rg.err = 0#4 ∧ s.rg.pad = 1#1 ∧ s.rg.Legal ∧ 0 < s.rg.cnt.toNat) ∧
    (let s := withRg 0#15 0#4 8#4 5#4 1#1 0#4;
      s.rg.err = 0#4 ∧ s.rg.pad = 1#1 ∧ s.rg.Legal ∧ ¬ 0 < s.rg.cnt.toNat) ∧
    (let s := withRg 31#15 5#4 5#4 8#4 0#1 0#4;
      s.rg.err = 0#4 ∧ s.rg.pad = 0#1 ∧ s.rg.inW.toNat ≤ s.rg.cnt.toNat) ∧
    (let s := withRg 1#15 4#4 5#4 8#4 0#1 0#4;
      s.rg.err = 0#4 ∧ s.rg.pad = 0#1 ∧ s.rg.cnt.toNat < s.rg.inW.toNat ∧ s.rg.acc ≠ 0#15) ∧
    (let s := withRg 0#15 4#4 5#4 8#4 0#1 0#4;
      s.rg.err = 0#4 ∧ s.rg.pad = 0#1 ∧ s.rg.cnt.toNat < s.rg.inW.toNat ∧ s.rg.acc = 0#15) ∧
    (let s := withRg 3#15 2#4 5#4 8#4 0#1 7#4;
      s.rg.err ≠ 0#4 ∧ s.rg.Legal) := by decide

theorem witness_FinUnpaddedTests :
    (let s := withRg 31#15 5#4 5#4 8#4 0#1 0#4;
      s.rg.Legal ∧ s.rg.err = 0#4 ∧ s.rg.pad = 0#1 ∧ s.rg.inW.toNat ≤ s.rg.cnt.toNat) ∧
    (let s := withRg 1#15 4#4 5#4 8#4 0#1 0#4;
      s.rg.Legal ∧ s.rg.err = 0#4 ∧ s.rg.pad = 0#1 ∧ ¬ s.rg.inW.toNat ≤ s.rg.cnt.toNat) := by decide

/-- The fullest buffer and the largest symbol, and the narrowest widths. -/
theorem witness_ConsumeKeepsBitOrder :
    (1 ≤ 8 ∧ 8 ≤ 8 ∧ 1 ≤ 8 ∧ 8 ≤ 8 ∧ 7 < 8 ∧ 127 < 2 ^ 7 ∧ 255 < 2 ^ 8) ∧ (1 ≤ 1 ∧ 1 ≤ 8 ∧ 0 < 1 ∧ 0 < 2 ^ 0 ∧ 1 < 2 ^ 1) := by
  decide

theorem witness_PushCounts :
    let s := withRg 127#15 7#4 8#4 8#4 0#1 0#4
    s.rg.Legal ∧ s.rg.err = 0#4 ∧ (255#8).toNat < 2 ^ s.rg.inW.toNat := by decide

theorem witness_GroupPacking : (List.replicate 8 0xff#8).length ≤ 8 ∧ ([] : List Byte).length ≤ 8 := by decide

theorem witness_BufferAndGroupBounds :
    let s := withRg 127#15 7#4 8#4 8#4 1#1 0#4
    s.rg.Legal ∧ (255#8).toNat < 2 ^ s.rg.inW.toNat ∧ ∃ t, exec .rgFin s = .next t ∧ t.inFlight.isSome = true :=
  ⟨by decide, by decide, _, rfl, rfl⟩

/-- A blocked command of each unit. -/
theorem witness_LatchBlocksOwnUnitOnly :
    ((withCk 1#30 3#4).Inv ∧ Blockable (.ckFold 0#5) = true ∧ unitErr (.ckFold 0#5) (withCk 1#30 3#4) ≠ 0#4 ∧
      (Instr.ckFold 0#5).unit = .ck) ∧
    ((withRg 3#15 2#4 5#4 8#4 0#1 7#4).Inv ∧ Blockable .rgFin = true ∧
      unitErr .rgFin (withRg 3#15 2#4 5#4 8#4 0#1 7#4) ≠ 0#4 ∧ Instr.rgFin.unit = .rg) :=
  ⟨⟨by decide, by decide, by decide, by decide⟩, by decide, by decide, by decide, by decide⟩

/-- The smallest reserved code and the largest that is not. -/
theorem witness_ReservedLatchStops :
    Blockable .rgFin = true ∧ 8 ≤ (unitErr .rgFin (withRg 0#15 0#4 5#4 8#4 0#1 8#4)).toNat ∧
      ¬ 8 ≤ (unitErr .rgFin (withRg 0#15 0#4 5#4 8#4 0#1 7#4)).toNat := by decide

/-- One command of each unit that answers a next state. -/
theorem witness_UnitsAreIndependent :
    (∃ t, exec (.ckFold 1#5) State.reset = .next t ∧ (Instr.ckFold 1#5).unit = .ck) ∧
      ∃ t, exec (.rgPush 1#8) State.reset = .next t ∧ (Instr.rgPush 1#8).unit = .rg :=
  ⟨⟨_, rfl, rfl⟩, _, rfl, rfl⟩

/-- Every clause of the frame has a command outside its list. -/
theorem witness_RegistersWrittenOnlyByTheirCommands :
    (∃ t, exec .rgRead State.reset = .next t) ∧ (∃ t, exec .ckRead State.reset = .next t) ∧
      Instr.rgRead.opcode ∉ [Opcode.ckInit, .ckHrph, .ckHrpl, .ckFold, .ckFoldc] ∧
      Instr.ckRead.opcode ∉ [Opcode.rgCfg, .rgClr, .rgPush, .rgFin] ∧ Instr.rgClr.opcode ≠ .rgCfg :=
  ⟨⟨_, rfl⟩, ⟨_, rfl⟩, by decide, by decide, by decide⟩

/-- An edge that clears a latched CK error. -/
theorem witness_CkErrLatchesFirstError :
    (∃ t f, exec (.ckHrph 0x20#8) State.reset = .next t ∧ t.inFlight = some f) ∧
      let s : State := { withPins false true 0x1000#16 false with ck := ⟨5#30, 4#4⟩ }
      ∃ t, step s = .next t ∧ s.ck.err ≠ 0#4 ∧ t.ck.err = 0#4 :=
  ⟨⟨_, _, rfl, rfl⟩, _, rfl, by decide, rfl⟩

/-- An edge that clears a latched RG error. -/
theorem witness_RgErrLatchesFirstError :
    (∃ t f, exec (.rgPush 32#8) State.reset = .next t ∧ t.inFlight = some f) ∧
      let s : State := { withPins false true 0x9000#16 false with rg := ⟨3#15, 2#4, 5#4, 8#4, 0#1, 7#4⟩ }
      ∃ t, step s = .next t ∧ s.rg.err ≠ 0#4 ∧ t.rg.err = 0#4 :=
  ⟨⟨_, _, rfl, rfl⟩, _, rfl, by decide, rfl⟩

/-- A latched error and a CHECKSUM. -/
theorem witness_ErrorWritesOnlyItsLatch :
    (State.reset.Inv ∧ ∃ t f, exec (.ckFoldc 0x62#8) State.reset = .next t ∧ t.inFlight = some f ∧ f.rsp.status = 4#4) ∧
      ∃ t f, exec (.ckCheck .bech32m) State.reset = .next t ∧ t.inFlight = some f ∧ f.rsp.status = 5#4 :=
  ⟨⟨by decide, _, _, rfl, rfl, by decide⟩, _, _, rfl, rfl, by decide⟩

theorem witness_StatusPriority : (withRg 3#15 2#4 5#4 8#4 0#1 7#4).Inv := by decide

/-- A reading command and a setting command, twice. -/
theorem witness_RepeatedCommands :
    (∃ t u, exec .ckRead State.reset = .next t ∧ exec .ckRead { t with inFlight := none } = .next u) ∧
      (∃ t u, exec .rgClr State.reset = .next t ∧ exec .rgClr { t with inFlight := none } = .next u) ∧
      Instr.ckRead.opcode ∈ [Opcode.ckRead, .rgRead, .ckCheck] ∧ Instr.rgClr.opcode ∈ [Opcode.ckInit, .rgClr, .rgCfg] :=
  ⟨⟨_, _, rfl, rfl⟩, ⟨_, _, rfl, rfl⟩, by decide, by decide⟩

/-- A prefix in range, and one with a character outside it. -/
theorem witness_HrpSequenceComputesSeed :
    (∀ ch ∈ [0x21#8, 0x7e#8], 33 ≤ ch.toNat ∧ ch.toNat ≤ 126) ∧
      ∃ ch ∈ [0x62#8, 0x7f#8], ¬ (33 ≤ ch.toNat ∧ ch.toNat ≤ 126) := by decide

theorem witness_ChecksumSequenceComputesPolymod :
    (∀ ch ∈ [0x62#8, 0x63#8], 33 ≤ ch.toNat ∧ ch.toNat ≤ 126) ∧ [0x71#8, 0x6c#8].map alphaDec = [0#5, 31#5].map some := by decide

theorem witness_RegroupingEqualsDoc0 :
    let s := withRg 0#15 0#4 5#4 8#4 0#1 0#4
    s.rg.Legal ∧ s.rg.err = 0#4 ∧ s.rg.cnt = 0#4 ∧ ∀ x ∈ [31#8, 28#8], x.toNat < 2 ^ s.rg.inW.toNat := by decide

theorem witness_FiveToEightCounts :
    let s := State.reset
    s.rg.Legal ∧ s.rg.inW = 5#4 ∧ s.rg.outW = 8#4 ∧ s.rg.pad = 0#1 ∧ s.rg.err = 0#4 ∧ s.rg.cnt = 0#4 ∧
      ∀ x ∈ [31#8, 0#8], x.toNat < 32 := by decide

end Sys2Proof.Tests
end

/-! ### The two units are independent (spec 10_state R35) -/

namespace Sys2Proof.Machine

/-- A CK command leaves the RG unit alone and answers the same beside every other RG unit. -/
theorem onCk_independent_of_rg {f : CkUnit → CkUnit × Response} {s t : State} (h : onCk f s = .next t) :
    t.rg = s.rg ∧ ∀ rg : RgUnit, onCk f { s with rg := rg } = .next { t with rg := rg } := by
  obtain ⟨hstatus, rfl⟩ := onCk_eq_next.mp h
  exact ⟨rfl, fun _ => onCk_eq_next.mpr ⟨hstatus, rfl⟩⟩

/-- An RG command leaves the CK unit alone and answers the same beside every other CK unit. -/
theorem onRg_independent_of_ck {f : RgUnit → RgUnit × Response} {s t : State} (h : onRg f s = .next t) :
    t.ck = s.ck ∧ ∀ ck : CkUnit, onRg f { s with ck := ck } = .next { t with ck := ck } := by
  obtain ⟨hstatus, rfl⟩ := onRg_eq_next.mp h
  exact ⟨rfl, fun _ => onRg_eq_next.mpr ⟨hstatus, rfl⟩⟩

/-- Settles O45: every command runs on its own unit (`exec_on_unit`), and a function of one unit neither sees nor changes the other. -/
theorem unitsAreIndependent : Obligations.UnitsAreIndependent := by
  unfold Obligations.UnitsAreIndependent
  intro i s t h
  obtain ⟨hunit, f, hf⟩ | ⟨hunit, f, hf⟩ := exec_on_unit i
  · simp only [hf] at h ⊢
    exact ⟨fun _ => onCk_independent_of_rg h, fun hrg => by simp [hunit] at hrg⟩
  · simp only [hf] at h ⊢
    exact ⟨fun hck => by simp [hunit] at hck, fun _ => onRg_independent_of_ck h⟩

end Sys2Proof.Machine

/-! ### The decoder and the opcode map (spec 30_encoding R58, R59) -/

namespace Sys2Proof

theorem matchesRow_iff {w : Word} {o : Opcode} : matchesRow w o = true ↔ w &&& opcodeMask o = opcodeMatch o :=
  beq_iff_eq

theorem mem_opcodeRows (o : Opcode) : o ∈ opcodeRows := by cases o <;> decide

/-- Every row's mask includes bits 15:12, so a word of the row has the row's `OP` there (R58's closing remark). -/
theorem op_of_matchesRow {w : Word} {o : Opcode} (h : matchesRow w o = true) : w &&& 0xF000#16 = opcodeMatch o := by
  have hmask : opcodeMask o &&& 0xF000#16 = 0xF000#16 := by cases o <;> rfl
  have hmatch : opcodeMatch o &&& 0xF000#16 = opcodeMatch o := by cases o <;> rfl
  calc w &&& 0xF000#16
      = (w &&& opcodeMask o) &&& 0xF000#16 := by rw [BitVec.and_assoc, hmask]
    _ = opcodeMatch o := by rw [matchesRow_iff.mp h, hmatch]

theorem opcodeMatch_injective : Function.Injective opcodeMatch := by
  have differ : ∀ o ∈ opcodeRows, ∀ o' ∈ opcodeRows, opcodeMatch o = opcodeMatch o' → o = o' := by decide
  exact fun o o' => differ o (mem_opcodeRows o) o' (mem_opcodeRows o')

/-- The rows do not overlap (R58's closing remark). -/
theorem matchesRow_unique {w : Word} {o o' : Opcode} (h : matchesRow w o = true) (h' : matchesRow w o' = true) :
    o = o' :=
  opcodeMatch_injective ((op_of_matchesRow h).symm.trans (op_of_matchesRow h'))

/-- The search for a word's row finds the row the word matches, whichever place it has in the map. -/
theorem find_row_eq_some {w : Word} {o : Opcode} :
    opcodeRows.find? (matchesRow w) = some o ↔ matchesRow w o = true := by
  refine ⟨List.find?_some, fun h => ?_⟩
  obtain ⟨o', ho'⟩ := Option.isSome_iff_exists.mp (List.find?_isSome.mpr ⟨o, mem_opcodeRows o, h⟩)
  rw [ho', matchesRow_unique (List.find?_some ho') h]

theorem find_row_eq_none {w : Word} :
    opcodeRows.find? (matchesRow w) = none ↔ ∀ o, matchesRow w o = false := by
  simp [List.find?_eq_none, mem_opcodeRows]

@[simp] theorem instrOf_opcode (o : Opcode) (w : Word) : (instrOf o w).opcode = o := by cases o <;> rfl

/-- A word that matches a row decodes to that row's command with the word's operand fields. -/
theorem decode_of_matchesRow {w : Word} {o : Opcode} (h : matchesRow w o = true) :
    decode w = .command (instrOf o w) := by
  rw [decode, find_row_eq_some.mpr h]

theorem decode_of_no_row {w : Word} (h : ∀ o, matchesRow w o = false) : decode w = .illegal (illegalKind w) := by
  rw [decode, find_row_eq_none.mpr h]

/-- R59: a word matches a row and decodes to its command, or matches none and is illegal. -/
theorem decode_cases (w : Word) :
    (∃ o, matchesRow w o = true ∧ decode w = .command (instrOf o w)) ∨
      ((∀ o, matchesRow w o = false) ∧ decode w = .illegal (illegalKind w)) := by
  by_cases h : ∃ o, matchesRow w o = true
  · obtain ⟨o, ho⟩ := h
    exact .inl ⟨o, ho, decode_of_matchesRow ho⟩
  · have hnone : ∀ o, matchesRow w o = false := by simpa using h
    exact .inr ⟨hnone, decode_of_no_row hnone⟩

theorem decode_is_command_of_row_iff {w : Word} {o : Opcode} :
    (∃ i, decode w = .command i ∧ i.opcode = o) ↔ matchesRow w o = true := by
  refine ⟨?_, fun h => ⟨_, decode_of_matchesRow h, instrOf_opcode o w⟩⟩
  rintro ⟨i, hi, rfl⟩
  obtain ⟨o, ho, hd⟩ | ⟨-, hd⟩ := decode_cases w
  · obtain rfl : instrOf o w = i := by simpa [hd] using hi
    rwa [instrOf_opcode]
  · simp [hd] at hi

theorem decode_is_illegal_iff {w : Word} : (∃ k, decode w = .illegal k) ↔ ∀ o, matchesRow w o = false := by
  refine ⟨?_, fun h => ⟨_, decode_of_no_row h⟩⟩
  rintro ⟨k, hk⟩
  obtain ⟨o, -, hd⟩ | ⟨hnone, -⟩ := decode_cases w
  · simp [hd] at hk
  · exact hnone

/-- Settles O3: the rule's table is the decoder's own (`opcodeRows` with `opcodeMatch` and `opcodeMask`), whose rows do not overlap, so the
first row found is the only one. -/
theorem opcodeMapRows : Obligations.OpcodeMapRows := by
  unfold Obligations.OpcodeMapRows
  intro rows w
  have table : rows = opcodeRows.map fun o => (o, opcodeMatch o, opcodeMask o) := rfl
  rw [table]
  simp only [List.forall_mem_map]
  constructor
  · intro o _
    exact decode_is_command_of_row_iff.trans matchesRow_iff
  · simp only [decode_is_illegal_iff, ← Bool.not_eq_true, matchesRow_iff, mem_opcodeRows, forall_const, ne_eq]

end Sys2Proof

/-! ### The assembler's pseudo-instructions (spec 30_encoding R64, R65) -/

namespace Sys2Proof

theorem assemble_of_wellFormed {l : AsmLine} (h : asmWellFormed l = true) :
    assemble l = some ((asmExpand l).map encode) := if_pos h

/-- An 8-bit operand that is in range fills the low byte of its word: setting its bits there is adding it. -/
theorem or_charField {ch : Nat} (h : ch ≤ 255) (k : Nat) :
    BitVec.ofNat 16 (2 ^ 8 * k) ||| (BitVec.ofNat 8 ch).setWidth 16 = BitVec.ofNat 16 (2 ^ 8 * k + ch) := by
  have hlt : ch < 2 ^ 8 := by omega
  rw [BitVec.setWidth_ofNat_of_le_of_lt (by decide) hlt, ← BitVec.ofNat_or, Nat.two_pow_add_eq_or_of_lt hlt]

theorem encode_ckHrph {ch : Nat} (h : ch ≤ 255) :
    encode (.ckHrph (BitVec.ofNat 8 ch)) = BitVec.ofNat 16 (0x2000 + ch) := or_charField h 0x20

theorem encode_ckHrpl {ch : Nat} (h : ch ≤ 255) :
    encode (.ckHrpl (BitVec.ofNat 8 ch)) = BitVec.ofNat 16 (0x3000 + ch) := or_charField h 0x30

theorem encode_ckFoldc {ch : Nat} (h : ch ≤ 255) :
    encode (.ckFoldc (BitVec.ofNat 8 ch)) = BitVec.ofNat 16 (0x5000 + ch) := or_charField h 0x50

/-- One command per character, each with its word: the list of words, character by character. -/
theorem encode_map_asmBytes {f : Byte → Instr} {word : Nat → Word} {chars : List Nat} (h : ∀ ch ∈ chars, ch ≤ 255)
    (hf : ∀ {ch : Nat}, ch ≤ 255 → encode (f (BitVec.ofNat 8 ch)) = word ch) :
    ((asmBytes chars).map f).map encode = chars.map word := by
  rw [asmBytes, List.map_map, List.map_map]
  exact List.map_congr_left fun ch hch => hf (h ch hch)

theorem hrpSequence_length (s : List Byte) : (hrpSequence s).length = 2 * s.length + 2 := by
  simp [hrpSequence]; omega

theorem encode_hrpSequence {chars : List Nat} (h : ∀ ch ∈ chars, ch ≤ 255) :
    (hrpSequence (asmBytes chars)).map encode =
      [0x1000#16] ++ chars.map (fun ch => BitVec.ofNat 16 (0x2000 + ch)) ++ [0x4000#16] ++
        chars.map (fun ch => BitVec.ofNat 16 (0x3000 + ch)) := by
  rw [← encode_map_asmBytes h encode_ckHrph, ← encode_map_asmBytes h encode_ckHrpl]
  simp [hrpSequence, encode]

theorem encode_dataSequence {chars : List Nat} (h : ∀ ch ∈ chars, ch ≤ 255) :
    (dataSequence (asmBytes chars)).map encode = chars.map fun ch => BitVec.ofNat 16 (0x5000 + ch) :=
  encode_map_asmBytes h encode_ckFoldc

/-- Settles O7: a string whose characters are in range is accepted, and its expansion is encoded command by command. -/
theorem pseudoInstructionExpansions : Obligations.PseudoInstructionExpansions := by
  unfold Obligations.PseudoInstructionExpansions
  refine ⟨by decide, by decide, by decide, fun chars h => ?_⟩
  have inRange : chars.all (· < 256) = true := by
    simp only [List.all_eq_true, decide_eq_true_eq]
    exact fun ch hch => Nat.lt_succ_of_le (h ch hch)
  refine ⟨⟨_, assemble_of_wellFormed (l := .ckHrp chars) inRange, ?_, encode_hrpSequence h⟩, ?_⟩
  · simp [asmExpand, hrpSequence_length, asmBytes]
  · exact (assemble_of_wellFormed (l := .ckData chars) inRange).trans (congrArg some (encode_dataSequence h))

end Sys2Proof

/-! ### A command's word decodes to the command (spec 30_encoding R59, R64) -/

namespace Sys2Proof

theorem matchesRow_encode (i : Instr) : matchesRow (encode i) i.opcode = true := by
  cases i with
  | ckInit => exact Laws.EncodedRow.ckInit
  | ckHrph ch => exact Laws.EncodedRow.ckHrph ch
  | ckHrpl ch => exact Laws.EncodedRow.ckHrpl ch
  | ckFold v => exact Laws.EncodedRow.ckFold v
  | ckFoldc ch => exact Laws.EncodedRow.ckFoldc ch
  | ckCheck var => exact Laws.EncodedRow.ckCheck var
  | ckRead => exact Laws.EncodedRow.ckRead
  | rgCfg iw ow padf => exact Laws.EncodedRow.rgCfg iw ow padf
  | rgClr => exact Laws.EncodedRow.rgClr
  | rgPush sym => exact Laws.EncodedRow.rgPush sym
  | rgFin => exact Laws.EncodedRow.rgFin
  | rgRead => exact Laws.EncodedRow.rgRead

/-- Every operand is read back from the field it was written to. -/
theorem instrOf_encode (i : Instr) : instrOf i.opcode (encode i) = i := by
  cases i with
  | ckInit | ckRead | rgClr | rgFin | rgRead => rfl
  | ckHrph ch | ckHrpl ch | ckFoldc ch | rgPush ch => revert ch; decide
  | ckFold v => revert v; decide
  | ckCheck var => cases var <;> rfl
  | rgCfg iw ow padf => revert iw ow padf; decide

theorem decode_encode (i : Instr) : decode (encode i) = .command i := by
  rw [decode_of_matchesRow (matchesRow_encode i), instrOf_encode]

end Sys2Proof

/-! ### The polymod step and folding (spec 40_checksum R76, R77, R90, R92) -/

namespace Sys2Proof.Machine

/-- R76's term of generator `i`: the generator if bit `i` of `b`, the accumulator's top five bits, is set, and nothing otherwise. -/
def genTerm (c : Acc) (i : Nat) : Acc := if c.getLsbD (25 + i) then gen i else 0#30

/-- The five terms together. -/
def genTerms (c : Acc) : Acc := genTerm c 0 ^^^ genTerm c 1 ^^^ genTerm c 2 ^^^ genTerm c 3 ^^^ genTerm c 4

theorem genTerm_eq_ite_div (c : Acc) (i : Nat) :
    genTerm c i = if c.toNat / 2 ^ (25 + i) % 2 = 1 then gen i else 0#30 := by
  simp [genTerm, ← BitVec.testBit_toNat, Nat.testBit_eq_decide_div_mod_eq]

/-- A term is chosen by one bit, and the bits of an exclusive or are those of its parts. -/
theorem genTerm_xor (c d : Acc) (i : Nat) : genTerm (c ^^^ d) i = genTerm c i ^^^ genTerm d i := by
  simp only [genTerm, BitVec.getLsbD_xor]
  cases c.getLsbD (25 + i) <;> cases d.getLsbD (25 + i) <;> simp

theorem genTerms_xor (c d : Acc) : genTerms (c ^^^ d) = genTerms c ^^^ genTerms d := by
  simp only [genTerms, genTerm_xor]
  ac_rfl

theorem genTerm_of_lt {c : Acc} (h : c.toNat < 2 ^ 25) (i : Nat) : genTerm c i = 0#30 := by
  have hbit : c.toNat.testBit (25 + i) = false :=
    Nat.testBit_lt_two_pow (h.trans_le (Nat.pow_le_pow_right (by decide) (Nat.le_add_right 25 i)))
  simp [genTerm, ← BitVec.testBit_toNat, hbit]

theorem genTerms_of_lt {c : Acc} (h : c.toNat < 2 ^ 25) : genTerms c = 0#30 := by
  simp [genTerms, genTerm_of_lt h]

/-- The five bits that R76 masks off are the five that the shift drops. -/
theorem and_low25_shiftLeft (c : Acc) : (c &&& 0x1ffffff#30) <<< 5 = c <<< 5 := by
  have hlow : c.toNat &&& 0x1ffffff = c.toNat % 2 ^ 25 := Nat.and_two_pow_sub_one_eq_mod c.toNat 25
  apply BitVec.eq_of_toNat_eq
  simp only [BitVec.toNat_shiftLeft, BitVec.toNat_and, BitVec.toNat_ofNat, Nat.reducePow, Nat.reduceMod, hlow,
    Nat.shiftLeft_eq]
  omega

/-- One turn of R76's loop: bit `i` of `b` is bit `25 + i` of the accumulator, and a generator left out is a zero term. -/
theorem ite_xor_gen {i : Nat} (hi : i < 5) (c r : Acc) :
    (if ((c >>> 25).setWidth 5 : BitVec 5).getLsbD i then r ^^^ gen i else r) = r ^^^ genTerm c i := by
  have hbit : ((c >>> 25).setWidth 5 : BitVec 5).getLsbD i = c.getLsbD (25 + i) := by
    simp [hi]
  rw [genTerm, hbit]
  cases c.getLsbD (25 + i) <;> simp

/-- R76: shift, then XOR in the chosen generators. -/
theorem polymodStep_eq (c : Acc) : polymodStep c = c <<< 5 ^^^ genTerms c := by
  have hrange : List.range 5 = [0, 1, 2, 3, 4] := rfl
  simp (disch := decide) only [polymodStep, hrange, List.foldl_cons, List.foldl_nil, ite_xor_gen, and_low25_shiftLeft]
  simp only [genTerms, BitVec.xor_assoc]

theorem polymodStep_zero : polymodStep 0#30 = 0#30 := rfl

theorem polymodStep_xor (c d : Acc) : polymodStep (c ^^^ d) = polymodStep c ^^^ polymodStep d := by
  simp only [polymodStep_eq, genTerms_xor, BitVec.shiftLeft_xor_distrib]
  ac_rfl

theorem foldSymbol_xor (c d : Acc) (v w : Sym) :
    foldSymbol (c ^^^ d) (v ^^^ w) = foldSymbol c v ^^^ foldSymbol d w := by
  simp only [foldSymbol, polymodStep_xor, BitVec.setWidth_xor]
  ac_rfl

theorem foldSymbol_zero (v : Sym) : foldSymbol 0#30 v = v.setWidth 30 := by
  simp [foldSymbol, polymodStep_zero]

/-- Two folds of one accumulator differ exactly as the values do: by linearity the accumulator cancels. -/
theorem foldSymbol_xor_same (c : Acc) (v w : Sym) : foldSymbol c v ^^^ foldSymbol c w = (v ^^^ w).setWidth 30 := by
  rw [← foldSymbol_xor, BitVec.xor_self, foldSymbol_zero]

theorem foldSymbol_injective (c : Acc) : Function.Injective (foldSymbol c) := by
  intro v w h
  have hzero : (v ^^^ w).setWidth 30 = 0#30 := by rw [← foldSymbol_xor_same c, h, BitVec.xor_self]
  rw [← BitVec.xor_eq_zero_iff]
  calc v ^^^ w = ((v ^^^ w).setWidth 30).setWidth 5 := by simp
    _ = 0#5 := by rw [hzero]; rfl

/-- The shifted accumulator and a 5-bit value have no bit in common. -/
theorem shiftLeft_xor_setWidth (c : Acc) (v : Sym) : c <<< 5 ^^^ v.setWidth 30 = c <<< 5 ||| v.setWidth 30 := by
  ext i hi
  by_cases h : i < 5
  · simp [h]
  · simp [h, BitVec.getLsbD_of_ge v i (by omega)]

/-- Settles O22: the loop over the generators is the XOR of their terms (`polymodStep_eq`), and XOR commutes. -/
theorem polymodStepAndFold : Obligations.PolymodStepAndFold := by
  unfold Obligations.PolymodStepAndFold
  intro c v base term terms
  have hterms : genTerms c = terms := by simp only [genTerms, genTerm_eq_ite_div]; rfl
  have hstep : polymodStep c = base ^^^ terms := by rw [polymodStep_eq, hterms, ← and_low25_shiftLeft]
  refine ⟨hstep, rfl, ?_⟩
  rw [foldSymbol, hstep]
  ac_rfl

/-- Settles O23: the shift and each generator's term are linear. -/
theorem foldIsLinear : Obligations.FoldIsLinear :=
  ⟨polymodStep_zero, foldSymbol_xor⟩

/-- Settles O24: below `2^25` no term is chosen; and folds of one accumulator differ as their values do. -/
theorem foldOfSmallAccumulator : Obligations.FoldOfSmallAccumulator := by
  unfold Obligations.FoldOfSmallAccumulator
  refine ⟨fun c v h => ?_, fun c v w => ⟨foldSymbol_xor_same c v w, fun h => foldSymbol_injective c h⟩⟩
  rw [foldSymbol, polymodStep_eq, genTerms_of_lt h, BitVec.xor_zero, shiftLeft_xor_setWidth]

end Sys2Proof.Machine

/-! ### What the checksum commands answer (spec 40_checksum R83 to R89) -/

namespace Sys2Proof.Machine

/-- A command that runs `f` on the CK unit answers what `f` answers. -/
theorem answers_of_onCk {i : Instr} {s : State} {f : CkUnit → CkUnit × Response} {u : CkUnit} {r : Response}
    (hexec : exec i s = onCk f s) (hf : f s.ck = (u, r)) (hstatus : r.status.toNat < 8) : Answers i s u s.rg r := by
  rw [Answers, hexec, onCk_eq_next, hf]
  exact ⟨hstatus, rfl⟩

/-- A blocked CK command of a free unit answers what its own function answers. -/
theorem answers_of_free {i : Instr} {s : State} {f : CkUnit → CkUnit × Response} {u : CkUnit} {r : Response}
    (hexec : exec i s = onCk (blockedCk f) s) (hfree : s.ck.err = 0#4) (hf : f s.ck = (u, r))
    (hstatus : r.status.toNat < 8) : Answers i s u s.rg r :=
  answers_of_onCk hexec ((blockedCk_free hfree).trans hf) hstatus

/-- The CK commands a latched error blocks (R82) check the latch before anything else. -/
theorem exec_blockable_ck {i : Instr} (hunit : i.unit = .ck) (hblock : Blockable i = true) :
    ∃ f, ∀ s, exec i s = onCk (blockedCk f) s := by
  cases i with
  | ckHrph | ckHrpl | ckFold | ckFoldc | ckCheck => exact ⟨_, fun _ => rfl⟩
  | ckInit | ckRead => simp at hblock
  | rgCfg | rgClr | rgPush | rgFin | rgRead => simp [Instr.unit] at hunit

theorem CkUnit.Legal.err_lt {u : CkUnit} (h : u.Legal) : u.err.toNat < 8 := by
  obtain h | h | h := h <;> simp [h]

/-- A latched CK unit answers its latch to every command it blocks, and is left as it is (R82, 60_exceptions R140). -/
theorem answers_of_latched {i : Instr} {s : State} (hunit : i.unit = .ck) (hblock : Blockable i = true)
    (hlatched : s.ck.err ≠ 0#4) (hlegal : s.ck.Legal) : Answers i s s.ck s.rg ⟨s.ck.err, 0#4, 0#64⟩ := by
  obtain ⟨f, hf⟩ := exec_blockable_ck hunit hblock
  exact answers_of_onCk (hf s) (blockedCk_latched hlatched) hlegal.err_lt

theorem zext64_eq_ofNat {n : Nat} (v : BitVec n) : zext64 v = BitVec.ofNat 64 v.toNat :=
  (BitVec.ofNat_toNat 64 v).symm

/-- A field placed at bit 32 above the accumulator is added to it there (R87, R89). -/
theorem zext64_shiftLeft_or {n : Nat} (hn : n ≤ 32) (v : BitVec n) (c : Acc) :
    zext64 v <<< 32 ||| zext64 c = BitVec.ofNat 64 (v.toNat * 2 ^ 32 + c.toNat) := by
  have hv : v.toNat < 2 ^ 32 := v.isLt.trans_le (Nat.pow_le_pow_right (by decide) hn)
  have hc : c.toNat < 2 ^ 32 := c.isLt.trans (by decide)
  apply BitVec.eq_of_toNat_eq
  rw [Nat.mul_comm, Nat.two_pow_add_eq_or_of_lt hc, BitVec.ofNat_or, BitVec.toNat_or, BitVec.toNat_or]
  simp [zext64_eq_ofNat, Nat.shiftLeft_eq, Nat.mul_comm]

theorem prefixChar_iff {ch : Byte} : prefixChar ch = true ↔ 33 ≤ ch.toNat ∧ ch.toNat ≤ 126 := by
  simp [prefixChar]

theorem prefixChar_eq_false_iff {ch : Byte} : prefixChar ch = false ↔ ch.toNat < 33 ∨ 126 < ch.toNat := by
  rw [← Bool.not_eq_true, prefixChar_iff]; omega

theorem charHigh_eq (ch : Byte) : charHigh ch = BitVec.ofNat 5 (ch.toNat / 32) := by
  rw [charHigh, ← BitVec.ofNat_toNat, BitVec.toNat_ushiftRight, Nat.shiftRight_eq_div_pow]

theorem charLow_eq (ch : Byte) : charLow ch = BitVec.ofNat 5 (ch.toNat % 32) := by
  have hlow : ch.toNat &&& 31 = ch.toNat % 2 ^ 5 := Nat.and_two_pow_sub_one_eq_mod ch.toNat 5
  rw [charLow, ← BitVec.ofNat_toNat, BitVec.toNat_and]
  exact congrArg _ hlow

/-- A fold by a free unit leaves and answers the new accumulator. -/
theorem foldAndShow_free {u : CkUnit} (hfree : u.err = 0#4) (v : Sym) :
    foldAndShow v u =
      (⟨foldSymbol u.acc v, 0#4⟩, ⟨0#4, 0#4, BitVec.ofNat 64 (foldSymbol u.acc v).toNat⟩) := by
  rw [foldAndShow_eq, hfree, zext64_eq_ofNat]

/-- A free unit latches the error raised and answers its code. -/
theorem raiseCk_free {u : CkUnit} (hfree : u.err = 0#4) (st : Status) :
    raiseCk st u = (⟨u.acc, statusCode st⟩, ⟨statusCode st, 0#4, 0#64⟩) := by
  simp [raiseCk, codeResponse, hfree]

theorem foldDataChar_some {ch : Byte} {v : Sym} {u : CkUnit} (hfree : u.err = 0#4) (h : alphaDec ch = some v) :
    foldDataChar ch u = (⟨foldSymbol u.acc v, 0#4⟩,
      ⟨0#4, 0#4, BitVec.ofNat 64 (v.toNat * 2 ^ 32 + (foldSymbol u.acc v).toNat)⟩) := by
  rw [← zext64_shiftLeft_or (by decide)]
  simp [foldDataChar, h, hfree, okResponse, statusCode]

theorem foldDataChar_none {ch : Byte} (u : CkUnit) (h : alphaDec ch = none) :
    foldDataChar ch u = raiseCk .alphabet u := by
  simp [foldDataChar, h]

/-- Both passes over a character in range fold the part they take of it (R84, R85). -/
theorem answers_foldPrefixChar {i : Instr} {part : Byte → Sym} {ch : Byte} {s : State}
    (hexec : exec i s = onCk (blockedCk (foldPrefixChar part ch)) s) (hfree : s.ck.err = 0#4)
    (hch : 33 ≤ ch.toNat ∧ ch.toNat ≤ 126) :
    Answers i s ⟨foldSymbol s.ck.acc (part ch), 0#4⟩ s.rg
      ⟨0#4, 0#4, BitVec.ofNat 64 (foldSymbol s.ck.acc (part ch)).toNat⟩ :=
  answers_of_free hexec hfree
    ((foldPrefixChar_legal (prefixChar_iff.mpr hch) s.ck).trans (foldAndShow_free hfree _)) (by simp)

/-- Both passes raise PREFIX for a character out of range (R84, R85). -/
theorem answers_foldPrefixChar_illegal {i : Instr} {part : Byte → Sym} {ch : Byte} {s : State}
    (hexec : exec i s = onCk (blockedCk (foldPrefixChar part ch)) s) (hfree : s.ck.err = 0#4)
    (hch : ch.toNat < 33 ∨ 126 < ch.toNat) :
    Answers i s ⟨s.ck.acc, 3#4⟩ s.rg ⟨3#4, 0#4, 0#64⟩ :=
  answers_of_free hexec hfree
    ((foldPrefixChar_illegal (prefixChar_eq_false_iff.mpr hch) s.ck).trans (raiseCk_free hfree .badPrefix)) (by decide)

/-- Settles O26: seeding asks neither the latch nor the old accumulator. -/
theorem initStartsChecksum : Obligations.InitStartsChecksum := fun _ =>
  answers_of_onCk (f := startChecksum) rfl rfl (by decide)

/-- Settles O27: `CK_HRPH` folds `charHigh` after the range check, unless a latched error blocks it. -/
theorem hrphFoldsHighPart : Obligations.HrphFoldsHighPart := by
  unfold Obligations.HrphFoldsHighPart
  intro s ch
  rw [← charHigh_eq]
  exact ⟨fun hfree hmin hmax => answers_foldPrefixChar rfl hfree ⟨hmin, hmax⟩,
    answers_foldPrefixChar_illegal (part := charHigh) rfl, answers_of_latched rfl rfl⟩

/-- Settles O28: `CK_HRPL` folds `charLow` after the range check, unless a latched error blocks it. -/
theorem hrplFoldsLowPart : Obligations.HrplFoldsLowPart := by
  unfold Obligations.HrplFoldsLowPart
  intro s ch
  rw [← charLow_eq]
  exact ⟨fun hfree hmin hmax => answers_foldPrefixChar rfl hfree ⟨hmin, hmax⟩,
    answers_foldPrefixChar_illegal (part := charLow) rfl, answers_of_latched rfl rfl⟩

/-- Settles O29: `CK_FOLD` has no operand check of its own. -/
theorem foldFoldsValue : Obligations.FoldFoldsValue := by
  unfold Obligations.FoldFoldsValue
  intro s v
  exact ⟨fun hfree => answers_of_free rfl hfree (foldAndShow_free hfree v) (by simp), answers_of_latched rfl rfl⟩

/-- Settles O30: `CK_FOLDC` is decided by the latch, then by `alphaDec`. -/
theorem foldcDecodesAndFolds : Obligations.FoldcDecodesAndFolds := by
  unfold Obligations.FoldcDecodesAndFolds
  intro s ch
  refine ⟨fun v hfree hv => ?_, fun hfree hnone => ?_, answers_of_latched rfl rfl⟩
  · exact answers_of_free rfl hfree (foldDataChar_some hfree hv) (by simp)
  · exact answers_of_free rfl hfree ((foldDataChar_none s.ck hnone).trans (raiseCk_free hfree .alphabet)) (by decide)

theorem checkTarget_eq (var : Variant) (u : CkUnit) :
    checkTarget var u = (u, ⟨if u.acc = target var then 0#4 else 5#4, 0#4, BitVec.ofNat 64 u.acc.toNat⟩) := by
  rw [← zext64_eq_ofNat]; rfl

/-- Settles O31: `CK_CHECK` answers OK or CHECKSUM and leaves the unit as it is. -/
theorem checkComparesWithTarget : Obligations.CheckComparesWithTarget := by
  unfold Obligations.CheckComparesWithTarget
  intro s var goal
  have hgoal : goal = target var := by cases var <;> rfl
  refine ⟨fun hfree => ?_, answers_of_latched rfl rfl⟩
  rw [hgoal]
  refine answers_of_free rfl hfree (checkTarget_eq var s.ck) ?_
  split <;> simp

/-- Settles O32: `CK_READ` asks neither the latch nor an operand. -/
theorem ckReadShowsRegisters : Obligations.CkReadShowsRegisters := by
  unfold Obligations.CkReadShowsRegisters
  intro s
  rw [← zext64_shiftLeft_or (by decide)]
  exact answers_of_onCk (f := showCk) rfl rfl (by simp)

end Sys2Proof.Machine

/-! ### Sequences of checksum commands (spec 30_encoding R65; 40_checksum R79, R91) -/

namespace Sys2Proof.Machine

/-- A command that answers in any state is a transaction of its word. -/
theorem transact_encode {i : Instr} {s : State} {ck : CkUnit} {rg : RgUnit} {r : Response} (h : Answers i s ck rg r) :
    transact (encode i) s = some ({ s with ck := ck, rg := rg, inFlight := none }, r) :=
  transact_eq_some.mpr ⟨_, _, (acceptWord_command (decode_encode i) s).trans h, rfl, rfl, rfl⟩

/-- The responses of two sequences one after the other are those of the first followed by those of the second. -/
theorem transactAll_append {ws ws' : List Word} {s t u : State} {rs rs' : List Response}
    (h : transactAll ws s = some (t, rs)) (h' : transactAll ws' t = some (u, rs')) :
    transactAll (ws ++ ws') s = some (u, rs ++ rs') := by
  induction ws generalizing s rs with
  | nil =>
    obtain ⟨rfl, rfl⟩ : s = t ∧ [] = rs := by simpa using h
    simpa using h'
  | cons w ws ih =>
    cases hw : transact w s with
    | none => simp [transactAll, hw] at h
    | some p =>
      obtain ⟨v, r⟩ := p
      rw [transactAll_cons hw, Option.map_eq_some_iff] at h
      obtain ⟨⟨t', qs⟩, hrest, hpair⟩ := h
      obtain ⟨rfl, rfl⟩ : t' = t ∧ r :: qs = rs := by simpa using hpair
      rw [List.cons_append, transactAll_cons hw, ih hrest]
      rfl

/-- Every state whose CK unit is `u` answers the commands `is` with the statuses `codes`, in order, ends with the CK unit `u'`, and
keeps its RG unit. -/
def CkRun (is : List Instr) (u u' : CkUnit) (codes : List Code) : Prop :=
  ∀ s : State, s.ck = u → ∃ t rs, transactAll (is.map encode) s = some (t, rs) ∧ t.ck = u' ∧ t.rg = s.rg ∧
    rs.map Response.status = codes

theorem CkRun.nil (u : CkUnit) : CkRun [] u u [] :=
  fun s hs => ⟨s, [], rfl, hs, rfl, rfl⟩

/-- One command. -/
theorem CkRun.single {i : Instr} {u u' : CkUnit} {code : Code}
    (h : ∀ s : State, ∃ r, Answers i { s with ck := u } u' s.rg r ∧ r.status = code) : CkRun [i] u u' [code] := by
  rintro s rfl
  obtain ⟨r, hanswers, hstatus⟩ := h s
  exact ⟨_, [r], transactAll_cons (transact_encode hanswers), rfl, rfl, by simp [hstatus]⟩

theorem CkRun.append {is js : List Instr} {u u' u'' : CkUnit} {codes codes' : List Code}
    (h : CkRun is u u' codes) (h' : CkRun js u' u'' codes') : CkRun (is ++ js) u u'' (codes ++ codes') := by
  intro s hs
  obtain ⟨t, rs, hrun, hck, hrg, hcodes⟩ := h s hs
  obtain ⟨v, qs, hrun', hck', hrg', hcodes'⟩ := h' t hck
  refine ⟨v, rs ++ qs, ?_, hck', hrg'.trans hrg, by rw [List.map_append, hcodes, hcodes']⟩
  rw [List.map_append]
  exact transactAll_append hrun hrun'

/-- Commands that fold one value each fold the values in order. -/
theorem CkRun.folds {α : Type} {command : α → Instr} {value : α → Sym} {xs : List α}
    (h : ∀ x ∈ xs, ∀ c, CkRun [command x] ⟨c, 0#4⟩ ⟨foldSymbol c (value x), 0#4⟩ [0#4]) (c : Acc) :
    CkRun (xs.map command) ⟨c, 0#4⟩ ⟨xs.foldl (fun c x => foldSymbol c (value x)) c, 0#4⟩
      (List.replicate xs.length 0#4) := by
  induction xs generalizing c with
  | nil => exact CkRun.nil _
  | cons x xs ih =>
    have hhead := h x List.mem_cons_self c
    exact hhead.append (ih (fun y hy => h y (List.mem_cons_of_mem x hy)) _)

/-- Once an error is latched, every command it blocks answers it. -/
theorem CkRun.latched {u : CkUnit} (hlatched : u.err ≠ 0#4) (hlegal : u.Legal) {is : List Instr}
    (h : ∀ i ∈ is, i.unit = .ck ∧ Blockable i = true) : CkRun is u u (List.replicate is.length u.err) := by
  induction is with
  | nil => exact CkRun.nil u
  | cons i is ih =>
    obtain ⟨hunit, hblock⟩ := h i List.mem_cons_self
    have hhead : CkRun [i] u u [u.err] :=
      CkRun.single fun s => ⟨_, answers_of_latched (s := { s with ck := u }) hunit hblock hlatched hlegal, rfl⟩
    exact hhead.append (ih fun j hj => h j (List.mem_cons_of_mem i hj))

theorem ckRun_latched_badPrefix (c : Acc) {is : List Instr} (h : ∀ i ∈ is, i.unit = .ck ∧ Blockable i = true) :
    CkRun is ⟨c, 3#4⟩ ⟨c, 3#4⟩ (List.replicate is.length 3#4) :=
  CkRun.latched (u := ⟨c, 3#4⟩) (by simp) (.inr (.inl rfl)) h

theorem ckRun_init (u : CkUnit) : CkRun [.ckInit] u ⟨1#30, 0#4⟩ [0#4] :=
  CkRun.single fun s => ⟨_, initStartsChecksum { s with ck := u }, rfl⟩

theorem ckRun_fold (v : Sym) (c : Acc) : CkRun [.ckFold v] ⟨c, 0#4⟩ ⟨foldSymbol c v, 0#4⟩ [0#4] :=
  CkRun.single fun s => ⟨_, (foldFoldsValue { s with ck := ⟨c, 0#4⟩ } v).1 rfl, rfl⟩

/-- A character in range, in either pass. -/
theorem ckRun_foldPrefixChar {i : Instr} {part : Byte → Sym} {ch : Byte}
    (hexec : ∀ s, exec i s = onCk (blockedCk (foldPrefixChar part ch)) s) (hch : 33 ≤ ch.toNat ∧ ch.toNat ≤ 126) (c : Acc) :
    CkRun [i] ⟨c, 0#4⟩ ⟨foldSymbol c (part ch), 0#4⟩ [0#4] :=
  CkRun.single fun s => ⟨_, answers_foldPrefixChar (hexec { s with ck := ⟨c, 0#4⟩ }) rfl hch, rfl⟩

/-- A character out of range in the first pass. -/
theorem ckRun_hrph_illegal {ch : Byte} (hch : ch.toNat < 33 ∨ 126 < ch.toNat) (c : Acc) :
    CkRun [.ckHrph ch] ⟨c, 0#4⟩ ⟨c, 3#4⟩ [3#4] :=
  CkRun.single fun s => ⟨_, answers_foldPrefixChar_illegal (part := charHigh) (s := { s with ck := ⟨c, 0#4⟩ }) rfl rfl hch, rfl⟩

theorem ckRun_foldc {ch : Byte} {v : Sym} (h : alphaDec ch = some v) (c : Acc) :
    CkRun [.ckFoldc ch] ⟨c, 0#4⟩ ⟨foldSymbol c v, 0#4⟩ [0#4] :=
  CkRun.single fun s => ⟨_, (foldcDecodesAndFolds { s with ck := ⟨c, 0#4⟩ } ch).1 v rfl h, rfl⟩

theorem ckRun_check (var : Variant) (c : Acc) :
    CkRun [.ckCheck var] ⟨c, 0#4⟩ ⟨c, 0#4⟩ [if c = target var then 0#4 else 5#4] :=
  CkRun.single fun s => ⟨_, (checkComparesWithTarget { s with ck := ⟨c, 0#4⟩ } var).1 rfl, by cases var <;> rfl⟩

/-- R79: the sequence of a string in range folds the high parts, a zero and the low parts, each answered OK. -/
theorem ckRun_hrpSequence {chars : List Byte} (h : ∀ ch ∈ chars, 33 ≤ ch.toNat ∧ ch.toNat ≤ 126) (u : CkUnit) :
    CkRun (hrpSequence chars) u ⟨hrpSeed chars, 0#4⟩ (List.replicate (2 * chars.length + 2) 0#4) := by
  have hhigh := CkRun.folds (command := .ckHrph) (value := charHigh)
    fun ch hch => ckRun_foldPrefixChar (fun _ => rfl) (h ch hch)
  have hlow := CkRun.folds (command := .ckHrpl) (value := charLow)
    fun ch hch => ckRun_foldPrefixChar (fun _ => rfl) (h ch hch)
  have hrun := ((ckRun_init u).append (hhigh 1#30)).append ((ckRun_fold 0 _).append (hlow _))
  have hcodes : List.replicate (2 * chars.length + 2) 0#4 =
      ([0#4] ++ List.replicate chars.length 0#4) ++ ([0#4] ++ List.replicate chars.length 0#4) := by
    simp only [← List.replicate_one, List.replicate_append_replicate]
    congr 1
    omega
  rw [hcodes]
  exact hrun

/-- The first pass over a string that leaves the range raises PREFIX at the first character that does and ends with it latched. -/
theorem ckRun_hrph_latches {chars : List Byte} (h : ∃ ch ∈ chars, ¬ (33 ≤ ch.toNat ∧ ch.toNat ≤ 126)) (c : Acc) :
    ∃ c' codes, CkRun (chars.map .ckHrph) ⟨c, 0#4⟩ ⟨c', 3#4⟩ codes ∧ 3#4 ∈ codes := by
  induction chars generalizing c with
  | nil => simp at h
  | cons ch chars ih =>
    by_cases hch : 33 ≤ ch.toNat ∧ ch.toNat ≤ 126
    · have hrest : ∃ ch ∈ chars, ¬ (33 ≤ ch.toNat ∧ ch.toNat ≤ 126) :=
        ((List.exists_mem_cons_iff _ ch chars).mp h).resolve_left (not_not_intro hch)
      obtain ⟨c', codes, hrun, hmem⟩ := ih hrest (foldSymbol c (charHigh ch))
      have hhead := ckRun_foldPrefixChar (i := .ckHrph ch) (part := charHigh) (fun _ => rfl) hch c
      exact ⟨c', _, hhead.append hrun, List.mem_append_right _ hmem⟩
    · have hrest : CkRun (chars.map .ckHrph) ⟨c, 3#4⟩ ⟨c, 3#4⟩ _ := ckRun_latched_badPrefix c (by simp [Instr.unit])
      exact ⟨c, _, (ckRun_hrph_illegal (by omega) c).append hrest, List.mem_append_left _ (by simp)⟩

/-- The whole sequence of such a string ends with PREFIX latched: all after the first pass is blocked. -/
theorem ckRun_hrpSequence_latches {chars : List Byte} (h : ∃ ch ∈ chars, ¬ (33 ≤ ch.toNat ∧ ch.toNat ≤ 126))
    (u : CkUnit) : ∃ c codes, CkRun (hrpSequence chars) u ⟨c, 3#4⟩ codes ∧ 3#4 ∈ codes := by
  obtain ⟨c, codes, hhigh, hmem⟩ := ckRun_hrph_latches h 1#30
  have hrest : CkRun (.ckFold 0 :: chars.map .ckHrpl) ⟨c, 3#4⟩ ⟨c, 3#4⟩ _ :=
    ckRun_latched_badPrefix c (by simp [Instr.unit])
  exact ⟨c, _, ((ckRun_init u).append hhigh).append hrest, by simp [hmem]⟩

/-- R80: the sequence of a data part whose characters have the given values folds them, each answered OK. -/
theorem ckRun_dataSequence {data : List Byte} {values : List Sym} (h : data.map alphaDec = values.map some) (c : Acc) :
    CkRun (dataSequence data) ⟨c, 0#4⟩ ⟨values.foldl foldSymbol c, 0#4⟩ (List.replicate data.length 0#4) := by
  have hvalues : values = data.map fun ch => (alphaDec ch).getD 0 := by
    simpa [Function.comp_def] using (congrArg (List.map (·.getD 0)) h).symm
  have hsome : ∀ ch ∈ data, alphaDec ch = some ((alphaDec ch).getD 0) := by
    intro ch hch
    have hmem : alphaDec ch ∈ values.map some := h ▸ List.mem_map_of_mem hch
    obtain ⟨v, -, hv⟩ := List.mem_map.mp hmem
    simp [← hv]
  rw [hvalues, List.foldl_map]
  exact CkRun.folds (fun ch hch => ckRun_foldc (hsome ch hch)) c

/-- The expansion of a string, folded symbol by symbol, is its seed. -/
theorem polymod_expansion (chars : List Byte) (values : List Sym) :
    polymod (chars.map charHigh ++ [0#5] ++ chars.map charLow ++ values) = values.foldl foldSymbol (hrpSeed chars) := by
  simp [polymod, hrpSeed, List.foldl_append, List.foldl_map]

/-- Settles O52: with every character in range the run of `ckRun_hrpSequence`, otherwise the run of `ckRun_hrpSequence_latches`. -/
theorem hrpSequenceComputesSeed : Obligations.HrpSequenceComputesSeed := by
  unfold Obligations.HrpSequenceComputesSeed
  intro s chars
  by_cases h : ∀ ch ∈ chars, 33 ≤ ch.toNat ∧ ch.toNat ≤ 126
  · obtain ⟨t, rs, hrun, hck, hrg, hcodes⟩ := ckRun_hrpSequence h s.ck s rfl
    refine ⟨t, rs, hrun, hrg, fun _ => ⟨hck, fun r hr => ?_⟩, fun ⟨ch, hch, hout⟩ => absurd (h ch hch) hout⟩
    exact List.eq_of_mem_replicate (hcodes ▸ List.mem_map_of_mem hr)
  · have hout : ∃ ch ∈ chars, ¬ (33 ≤ ch.toNat ∧ ch.toNat ≤ 126) := by simpa only [not_forall, exists_prop] using h
    obtain ⟨c, codes, hlatches, hmem⟩ := ckRun_hrpSequence_latches hout s.ck
    obtain ⟨t, rs, hrun, hck, hrg, hcodes⟩ := hlatches s rfl
    exact ⟨t, rs, hrun, hrg, fun hin => absurd hin h, fun _ => ⟨by rw [hck], List.mem_map.mp (hcodes ▸ hmem)⟩⟩

/-- Settles O53: the seed's run, the data's run and `CK_CHECK`, one after the other; their folds together are the polymod. -/
theorem checksumSequenceComputesPolymod : Obligations.ChecksumSequenceComputesPolymod := by
  unfold Obligations.ChecksumSequenceComputesPolymod
  intro s chars data values var hchars hdata c goal
  have hgoal : goal = target var := by cases var <;> rfl
  have hc : values.foldl foldSymbol (hrpSeed chars) = c := by
    rw [← polymod_expansion, funext charHigh_eq, funext charLow_eq]
  have hfolds := (ckRun_hrpSequence hchars s.ck).append (ckRun_dataSequence hdata (hrpSeed chars))
  rw [hc] at hfolds
  obtain ⟨t, qs, hrun, hck, hrg, hcodes⟩ := hfolds.append (ckRun_check var c) s rfl
  obtain ⟨rs, lasts, rfl, hrs, hlasts⟩ := List.map_eq_append_iff.mp hcodes
  obtain ⟨last, rfl, hlast⟩ := List.map_eq_singleton_iff.mp hlasts
  have hok : ∀ r ∈ rs, r.status = 0#4 := by
    intro r hr
    have hmem := hrs ▸ List.mem_map_of_mem (f := Response.status) hr
    rw [List.replicate_append_replicate] at hmem
    exact List.eq_of_mem_replicate hmem
  refine ⟨t, rs, last, hrun, hok, hck, hrg, ?_⟩
  rw [hlast, hgoal]
  by_cases hmatch : c = target var <;> simp [hmatch]

end Sys2Proof.Machine

/-! ### The source document's conversion as digits (spec 41_regrouper R105 to R107) -/

namespace Sys2Proof.Machine

/-- The number `v` followed by the digits `gs` of `width` bits each, the first the most significant. -/
def followedBy (width v : Nat) (gs : List Nat) : Nat :=
  gs.foldl (fun v g => v * 2 ^ width + g) v

theorem bitsValue_eq_followedBy (width : Nat) (gs : List Nat) : bitsValue width gs = followedBy width 0 gs := rfl

@[simp] theorem followedBy_nil (width v : Nat) : followedBy width v [] = v := rfl

@[simp] theorem followedBy_cons (width v g : Nat) (gs : List Nat) :
    followedBy width v (g :: gs) = followedBy width (v * 2 ^ width + g) gs := rfl

@[simp] theorem followedBy_append (width v : Nat) (gs hs : List Nat) :
    followedBy width v (gs ++ hs) = followedBy width (followedBy width v gs) hs :=
  List.foldl_append

theorem bitsValue_eq_ofDigits (width : Nat) (gs : List Nat) : bitsValue width gs = Nat.ofDigits (2 ^ width) gs.reverse := by
  rw [bitsValue, Nat.ofDigits_eq_foldr, List.foldr_reverse]
  simp only [Nat.cast_id, Nat.add_comm, Nat.mul_comm]

/-- Equally many digits of `width` bits are determined by their value. -/
theorem bitsValue_inj {width : Nat} {gs hs : List Nat} (hwidth : width ≠ 0) (hlength : gs.length = hs.length)
    (hgs : ∀ g ∈ gs, g < 2 ^ width) (hhs : ∀ h ∈ hs, h < 2 ^ width)
    (hvalue : bitsValue width gs = bitsValue width hs) : gs = hs := by
  rw [bitsValue_eq_ofDigits, bitsValue_eq_ofDigits] at hvalue
  exact List.reverse_injective (Nat.ofDigits_inj_of_len_eq (Nat.one_lt_two_pow hwidth)
    (by simpa using hlength) (by simpa using hgs) (by simpa using hhs) hvalue)

section Symbol

variable {inW x : Nat} (hx : x < 2 ^ inW) (buffer count : Nat)
include hx

theorem shiftIn_div : (buffer * 2 ^ inW + x) / 2 ^ inW = buffer := by
  rw [Nat.add_comm, Nat.add_mul_div_right _ _ (Nat.two_pow_pos inW), Nat.div_eq_of_lt hx, Nat.zero_add]

/-- Shifting a symbol in leaves the bits above the `count` buffered ones as they are. -/
theorem shiftIn_high_bits : (buffer * 2 ^ inW + x) / 2 ^ (count + inW) = buffer / 2 ^ count := by
  rw [Nat.add_comm count, Nat.pow_add, ← Nat.div_div_eq_div_mul, shiftIn_div hx]

/-- Shifting a symbol in and keeping the buffered bits is shifting it into the buffered bits. -/
theorem shiftIn_low_bits :
    (buffer * 2 ^ inW + x) % 2 ^ (count + inW) = buffer % 2 ^ count * 2 ^ inW + x := by
  rw [Nat.add_comm count, Nat.pow_add, Nat.mod_mul, shiftIn_div hx, Nat.mul_add_mod', Nat.mod_eq_of_lt hx, Nat.add_comm,
    Nat.mul_comm]

end Symbol

/-! One symbol's extraction: what the loop of R105 does with the low `n` bits of `a`. -/

section Extract

variable (a w turns n : Nat)

/-- The groups are the bits taken from the top of the low `n`, in order. -/
theorem doc0Extract_bits :
    a / 2 ^ (doc0Extract a w turns n).2 = followedBy w (a / 2 ^ n) (doc0Extract a w turns n).1 := by
  fun_induction doc0Extract a w turns n with
  | case1 n => rfl
  | case2 turns n h => rfl
  | case3 turns n h rest ih =>
    have htop : a / 2 ^ n * 2 ^ w + a / 2 ^ (n - w) % 2 ^ w = a / 2 ^ (n - w) := by
      have hn : 2 ^ n = 2 ^ (n - w) * 2 ^ w := by rw [← Nat.pow_add, Nat.sub_add_cancel (Nat.not_lt.mp h)]
      rw [hn, ← Nat.div_div_eq_div_mul, Nat.div_add_mod']
    rw [followedBy_cons, htop]
    exact ih

theorem doc0Extract_length :
    (doc0Extract a w turns n).1.length * w + (doc0Extract a w turns n).2 = n := by
  fun_induction doc0Extract a w turns n with
  | case1 n => simp
  | case2 turns n h => simp
  | case3 turns n h rest ih =>
    simp only [List.length_cons, Nat.succ_mul, rest]
    omega

theorem doc0Extract_group_lt : ∀ g ∈ (doc0Extract a w turns n).1, g < 2 ^ w := by
  fun_induction doc0Extract a w turns n with
  | case1 n => simp
  | case2 turns n h => simp
  | case3 turns n h rest ih => simpa using ⟨Nat.mod_lt _ (Nat.two_pow_pos w), ih⟩

/-- R106: the groups read only the low `n` bits of the buffer. -/
theorem doc0Extract_congr (b : Nat) (h : a % 2 ^ n = b % 2 ^ n) : doc0Extract a w turns n = doc0Extract b w turns n := by
  fun_induction doc0Extract a w turns n with
  | case1 n => rfl
  | case2 turns n hn => simp [doc0Extract, hn]
  | case3 turns n hn rest ih =>
    have hsplit : 2 ^ n = 2 ^ (n - w) * 2 ^ w := by rw [← Nat.pow_add, Nat.sub_add_cancel (Nat.not_lt.mp hn)]
    have htop : a / 2 ^ (n - w) % 2 ^ w = b / 2 ^ (n - w) % 2 ^ w := by
      rw [← Nat.mod_mul_right_div_self, ← Nat.mod_mul_right_div_self b, ← hsplit, h]
    have hlow : a % 2 ^ (n - w) = b % 2 ^ (n - w) := by
      rw [← Nat.mod_mul_right_mod a _ (2 ^ w), ← Nat.mod_mul_right_mod b _ (2 ^ w), ← hsplit, h]
    simp [doc0Extract, hn, htop, rest, ih hlow]

variable {w turns n}

theorem doc0Extract_left_lt (hw : 0 < w) (hturns : n ≤ turns) : (doc0Extract a w turns n).2 < w := by
  fun_induction doc0Extract a w turns n with
  | case1 n => omega
  | case2 turns n h => exact h
  | case3 turns n h rest ih => exact ih (by omega)

end Extract

/-- The source document's conversion of one symbol: the groups it completes, and how many bits are left. -/
def doc0Symbol (inW outW buffer count x : Nat) : List Nat × Nat :=
  doc0Extract (buffer * 2 ^ inW + x) outW (count + inW) (count + inW)

section OneSymbol

variable (inW outW buffer count x : Nat)

theorem doc0Symbol_length :
    (doc0Symbol inW outW buffer count x).1.length * outW + (doc0Symbol inW outW buffer count x).2 = count + inW :=
  doc0Extract_length _ _ _ _

theorem doc0Symbol_group_lt : ∀ g ∈ (doc0Symbol inW outW buffer count x).1, g < 2 ^ outW :=
  doc0Extract_group_lt _ _ _ _

theorem doc0Symbol_left_lt {outW : Nat} (hpos : 0 < outW) : (doc0Symbol inW outW buffer count x).2 < outW :=
  doc0Extract_left_lt _ hpos le_rfl

theorem doc0Symbol_left_eq_mod {outW : Nat} (hpos : 0 < outW) :
    (doc0Symbol inW outW buffer count x).2 = (count + inW) % outW := by
  rw [← doc0Symbol_length inW outW buffer count x, Nat.mul_add_mod', Nat.mod_eq_of_lt (doc0Symbol_left_lt _ _ _ _ hpos)]

theorem doc0Symbol_length_eq_div {outW : Nat} (hpos : 0 < outW) :
    (doc0Symbol inW outW buffer count x).1.length = (count + inW) / outW := by
  rw [← doc0Symbol_length inW outW buffer count x, Nat.add_comm, Nat.add_mul_div_right _ _ hpos,
    Nat.div_eq_of_lt (doc0Symbol_left_lt _ _ _ _ hpos), Nat.zero_add]

/-- A symbol of at most 8 bits after fewer than `outW` bits completes at most 8 groups (R119). -/
theorem doc0Symbol_length_le {inW outW count : Nat} (hinW : inW ≤ 8) (hcount : count < outW) :
    (doc0Symbol inW outW buffer count x).1.length ≤ 8 := by
  rw [doc0Symbol_length_eq_div _ _ _ _ (by omega)]
  exact Nat.le_of_lt_succ (Nat.div_lt_of_lt_mul (by omega))

variable {inW x} (hx : x < 2 ^ inW)
include hx

/-- The groups follow the bits emitted before: R107's order, for one symbol. -/
theorem doc0Symbol_bits :
    (buffer * 2 ^ inW + x) / 2 ^ (doc0Symbol inW outW buffer count x).2 =
      followedBy outW (buffer / 2 ^ count) (doc0Symbol inW outW buffer count x).1 := by
  rw [← shiftIn_high_bits hx buffer count]
  exact doc0Extract_bits _ _ _ _

/-- R106: the groups read only the low `count` bits of the buffer. -/
theorem doc0Symbol_low_bits :
    doc0Symbol inW outW (buffer % 2 ^ count) count x = doc0Symbol inW outW buffer count x := by
  refine doc0Extract_congr _ _ _ _ _ ?_
  rw [← shiftIn_low_bits hx, Nat.mod_mod]

end OneSymbol

/-! The conversion of a sequence of symbols. -/

section Convert

variable (inW outW : Nat)

theorem doc0Convert_cons (buffer count x : Nat) (xs : List Nat) :
    doc0Convert inW outW buffer count (x :: xs) =
      ((doc0Symbol inW outW buffer count x).1 ++
          (doc0Convert inW outW (buffer * 2 ^ inW + x) (doc0Symbol inW outW buffer count x).2 xs).1,
        (doc0Convert inW outW (buffer * 2 ^ inW + x) (doc0Symbol inW outW buffer count x).2 xs).2) := rfl

/-- The buffer is never masked (91 N23): it is every symbol shifted in. -/
theorem doc0Convert_buffer (buffer count : Nat) (xs : List Nat) :
    (doc0Convert inW outW buffer count xs).2.1 = followedBy inW buffer xs := by
  induction xs generalizing buffer count with
  | nil => rfl
  | cons x xs ih => exact ih _ _

/-- No bit is lost: those emitted and those left are those there were and those pushed. -/
theorem doc0Convert_length (buffer count : Nat) (xs : List Nat) :
    (doc0Convert inW outW buffer count xs).1.length * outW + (doc0Convert inW outW buffer count xs).2.2 =
      count + inW * xs.length := by
  induction xs generalizing buffer count with
  | nil => simp [doc0Convert]
  | cons x xs ih =>
    have hhead := doc0Symbol_length inW outW buffer count x
    have htail := ih (buffer * 2 ^ inW + x) (doc0Symbol inW outW buffer count x).2
    simp only [doc0Convert_cons, List.length_append, List.length_cons, Nat.add_mul, Nat.mul_add, Nat.mul_one]
    omega

theorem doc0Convert_group_lt (buffer count : Nat) (xs : List Nat) :
    ∀ g ∈ (doc0Convert inW outW buffer count xs).1, g < 2 ^ outW := by
  induction xs generalizing buffer count with
  | nil => simp [doc0Convert]
  | cons x xs ih =>
    simp only [doc0Convert_cons, List.mem_append]
    exact fun g hg => hg.elim (doc0Symbol_group_lt _ _ _ _ _ g) (ih _ _ g)

/-- The groups follow the bits emitted before: R107's order, over a sequence of symbols. -/
theorem doc0Convert_bits {xs : List Nat} (hxs : ∀ x ∈ xs, x < 2 ^ inW) (buffer count : Nat) :
    (doc0Convert inW outW buffer count xs).2.1 / 2 ^ (doc0Convert inW outW buffer count xs).2.2 =
      followedBy outW (buffer / 2 ^ count) (doc0Convert inW outW buffer count xs).1 := by
  induction xs generalizing buffer count with
  | nil => rfl
  | cons x xs ih =>
    obtain ⟨hx, hrest⟩ := List.forall_mem_cons.mp hxs
    rw [doc0Convert_cons, ih hrest, doc0Symbol_bits _ _ _ hx, followedBy_append]

theorem doc0Convert_left_lt {outW count : Nat} (hcount : count < outW) (buffer : Nat) (xs : List Nat) :
    (doc0Convert inW outW buffer count xs).2.2 < outW := by
  induction xs generalizing buffer count with
  | nil => exact hcount
  | cons x xs ih => exact ih (doc0Symbol_left_lt _ _ _ _ (by omega)) _

theorem doc0Convert_left_eq_mod {outW count : Nat} (hcount : count < outW) (buffer : Nat) (xs : List Nat) :
    (doc0Convert inW outW buffer count xs).2.2 = (count + inW * xs.length) % outW := by
  rw [← doc0Convert_length inW outW buffer count xs, Nat.mul_add_mod', Nat.mod_eq_of_lt (doc0Convert_left_lt _ hcount _ _)]

theorem doc0Convert_length_eq_div {outW count : Nat} (hcount : count < outW) (buffer : Nat) (xs : List Nat) :
    (doc0Convert inW outW buffer count xs).1.length = (count + inW * xs.length) / outW := by
  rw [← doc0Convert_length inW outW buffer count xs, Nat.add_comm, Nat.add_mul_div_right _ _ (by omega),
    Nat.div_eq_of_lt (doc0Convert_left_lt _ hcount _ _), Nat.zero_add]

/-- From an empty buffer the symbols' bits are the groups' bits, followed by those left. -/
theorem doc0Convert_empty_bits {xs : List Nat} (hxs : ∀ x ∈ xs, x < 2 ^ inW) :
    bitsValue inW xs / 2 ^ (doc0Convert inW outW 0 0 xs).2.2 = bitsValue outW (doc0Convert inW outW 0 0 xs).1 := by
  have hbits := doc0Convert_bits inW outW hxs 0 0
  rwa [doc0Convert_buffer] at hbits

end Convert

end Sys2Proof.Machine

/-! ### What the regrouper's functions compute (spec 30_encoding R68; 41_regrouper R107 to R109) -/

namespace Sys2Proof.Machine

/-- R68: byte `k` of the response's data is the k-th group, or zero where there is none. -/
theorem extract_packGroups {k : Nat} (hk : k < 8) (gs : List Byte) :
    (packGroups gs).extractLsb' (8 * k) 8 = gs.getD k 0#8 := by
  induction gs generalizing k with
  | nil => simp [packGroups]
  | cons g gs ih =>
    cases k with
    | zero =>
      ext i hi
      simp [packGroups, zext64, hi, Nat.lt_of_lt_of_le hi]
    | succ j =>
      rw [List.getD_cons_succ, ← ih (Nat.lt_of_succ_lt hk)]
      ext i hi
      have hbelow : 8 * (j + 1) + i < 64 := by omega
      have habove : ¬ 8 * (j + 1) + i < 8 := by omega
      have hshift : 8 * (j + 1) + i - 8 = 8 * j + i := by omega
      simp [packGroups, zext64, hbelow, habove, hshift, BitVec.getLsbD_of_ge g (8 * (j + 1) + i) (by omega),
        BitVec.getLsbD_eq_getElem (show 8 * j + i < 64 by omega)]

theorem groupsResponse_count {gs : List Byte} (h : gs.length ≤ 8) : (groupsResponse gs).count.toNat = gs.length :=
  Nat.mod_eq_of_lt (by omega)

/-- R68: up to 8 groups are read back from their response. -/
theorem groupsOf_groupsResponse {gs : List Byte} (h : gs.length ≤ 8) : groupsOf (groupsResponse gs) = gs := by
  refine List.ext_getElem (by simp [groupsOf, groupsResponse_count h]) fun k hk hk' => ?_
  simp [groupsOf, groupsResponse, extract_packGroups (Nat.lt_of_lt_of_le hk' h), hk']

/-- Groups of at most 8 bits are bytes. -/
theorem map_toNat_ofNat_groups {w : Nat} {gs : List Nat} (hw : w ≤ 8) (hgs : ∀ g ∈ gs, g < 2 ^ w) :
    (gs.map (BitVec.ofNat 8)).map BitVec.toNat = gs := by
  rw [List.map_map]
  refine (List.map_congr_left fun g hg => ?_).trans (List.map_id gs)
  exact Nat.mod_eq_of_lt ((hgs g hg).trans_le (Nat.pow_le_pow_right (by decide) hw))

/-- The block's loop is the source document's, its groups narrowed to bytes. -/
theorem emitGroups_eq (a outW turns n : Nat) :
    emitGroups a outW turns n =
      ((doc0Extract a outW turns n).1.map (BitVec.ofNat 8), (doc0Extract a outW turns n).2) := by
  induction turns generalizing n with
  | zero => rfl
  | succ turns ih =>
    by_cases h : outW ≤ n
    · rw [emitGroups_succ h, ih, and_mask, Nat.shiftRight_eq_div_pow]
      simp [doc0Extract, Nat.not_lt.mpr h]
    · rw [emitGroups_short (by omega)]
      simp [doc0Extract, Nat.lt_of_not_le h]

/-- R107: consuming a symbol is the source document's conversion of it, with the bits left kept and no others. -/
theorem consume_eq {inW x : Nat} (hx : x < 2 ^ inW) (outW acc cnt : Nat) :
    consume inW outW acc cnt x =
      ((acc * 2 ^ inW + x) % 2 ^ (doc0Symbol inW outW acc cnt x).2, (doc0Symbol inW outW acc cnt x).2,
        (doc0Symbol inW outW acc cnt x).1.map (BitVec.ofNat 8)) := by
  have ha : acc <<< inW ||| x = acc * 2 ^ inW + x := by rw [← Nat.shiftLeft_add_eq_or_of_lt hx, Nat.shiftLeft_eq]
  simp only [consume, ha, emitGroups_eq, and_mask, doc0Symbol]

/-- Settles O39: the groups and the bits left are the quotient and the remainder of the buffer with the symbol shifted in
(`doc0Symbol_bits`), since no bit stands above the `cnt` buffered ones. -/
theorem consumeKeepsBitOrder : Obligations.ConsumeKeepsBitOrder := by
  unfold Obligations.ConsumeKeepsBitOrder
  intro inW outW acc cnt x _ _ hpos hle _ hacc hx c
  have hc : c = _ := consume_eq hx outW acc cnt
  have hgroups := doc0Symbol_group_lt inW outW acc cnt x
  have hbits := doc0Symbol_bits outW acc cnt hx
  rw [Nat.div_eq_of_lt hacc, ← bitsValue_eq_followedBy] at hbits
  simp only [hc, map_toNat_ofNat_groups hle hgroups, List.length_map]
  refine ⟨by rw [← hbits, Nat.div_add_mod'], fun g hg => ?_, Nat.mod_lt _ (Nat.two_pow_pos _),
    doc0Symbol_left_lt _ _ _ _ hpos, doc0Symbol_length _ _ _ _ _⟩
  exact hgroups g.toNat (map_toNat_ofNat_groups hle hgroups ▸ List.mem_map_of_mem hg)

end Sys2Proof.Machine

/-! ### What the regrouper commands answer (spec 41_regrouper R110 to R114) -/

namespace Sys2Proof.Machine

/-- A command that runs `f` on the RG unit answers what `f` answers. -/
theorem answers_of_onRg {i : Instr} {s : State} {f : RgUnit → RgUnit × Response} {u : RgUnit} {r : Response}
    (hexec : exec i s = onRg f s) (hf : f s.rg = (u, r)) (hstatus : r.status.toNat < 8) : Answers i s s.ck u r := by
  rw [Answers, hexec, onRg_eq_next, hf]
  exact ⟨hstatus, rfl⟩

/-- A blocked RG command of a free unit answers what its own function answers. -/
theorem answers_of_freeRg {i : Instr} {s : State} {f : RgUnit → RgUnit × Response} {u : RgUnit} {r : Response}
    (hexec : exec i s = onRg (blockedRg f) s) (hfree : s.rg.err = 0#4) (hf : f s.rg = (u, r))
    (hstatus : r.status.toNat < 8) : Answers i s s.ck u r :=
  answers_of_onRg hexec ((blockedRg_free hfree).trans hf) hstatus

theorem RgUnit.Legal.err_lt {u : RgUnit} (h : u.Legal) : u.err.toNat < 8 := by
  obtain ⟨-, -, -, -, h | h | h | h⟩ := h <;> simp [h]

/-- A blocked RG command of a latched unit answers the latch and leaves the unit as it is (60_exceptions R140). -/
theorem answers_of_latchedRg {i : Instr} {s : State} {f : RgUnit → RgUnit × Response}
    (hexec : exec i s = onRg (blockedRg f) s) (hlatched : s.rg.err ≠ 0#4) (hlegal : s.rg.Legal) :
    Answers i s s.ck s.rg ⟨s.rg.err, 0#4, 0#64⟩ :=
  answers_of_onRg hexec (blockedRg_latched hlatched) hlegal.err_lt

/-- A free unit latches the error raised and answers its code. -/
theorem raiseRg_free {u : RgUnit} (hfree : u.err = 0#4) (st : Status) :
    raiseRg st u = ({ u with err := statusCode st }, ⟨statusCode st, 0#4, 0#64⟩) := by
  simp [raiseRg, codeResponse, hfree]

/-! RG_CFG and RG_CLR. -/

theorem legalWidth_iff {w : BitVec 4} : legalWidth w = true ↔ 1 ≤ w.toNat ∧ w.toNat ≤ 8 := by
  simp [legalWidth]

theorem configure_legal {iw ow : BitVec 4} (h : (1 ≤ iw.toNat ∧ iw.toNat ≤ 8) ∧ (1 ≤ ow.toNat ∧ ow.toNat ≤ 8))
    (padf : BitVec 1) (u : RgUnit) :
    configure iw ow padf u = (⟨0#15, 0#4, iw, ow, padf, 0#4⟩, ⟨0#4, 0#4, 0#64⟩) := by
  simp only [configure, legalWidth_iff.mpr h.1, legalWidth_iff.mpr h.2]
  rfl

theorem configure_illegal {iw ow : BitVec 4} (h : ¬ ((1 ≤ iw.toNat ∧ iw.toNat ≤ 8) ∧ (1 ≤ ow.toNat ∧ ow.toNat ≤ 8)))
    (padf : BitVec 1) (u : RgUnit) : configure iw ow padf u = raiseRg .operand u := by
  rw [← legalWidth_iff, ← legalWidth_iff, ← Bool.and_eq_true] at h
  exact if_neg h

/-- Settles O33: `RG_CFG` is decided by the two widths and asks neither the latch nor the buffer. -/
theorem cfgConfiguresOrRejects : Obligations.CfgConfiguresOrRejects := by
  unfold Obligations.CfgConfiguresOrRejects
  intro s iw ow padf legal
  refine ⟨fun h => ?_, fun h => ?_⟩
  · exact answers_of_onRg (f := configure iw ow padf) rfl (configure_legal h padf s.rg) (by decide)
  · exact answers_of_onRg (f := configure iw ow padf) rfl (configure_illegal h padf s.rg) (by decide)

/-- Settles O34: `RG_CLR` asks neither the latch nor the buffer. -/
theorem clrKeepsConfiguration : Obligations.ClrKeepsConfiguration := fun _ =>
  answers_of_onRg (f := clearRg) rfl rfl (by decide)

/-! RG_READ. -/

/-- A field placed at bit `k` above a smaller number is added to it there. -/
theorem zext64_shiftLeft_or_ofNat {n k low : Nat} (hlow : low < 2 ^ k) (v : BitVec n) :
    zext64 v <<< k ||| BitVec.ofNat 64 low = BitVec.ofNat 64 (v.toNat * 2 ^ k + low) := by
  rw [Nat.mul_comm, Nat.two_pow_add_eq_or_of_lt hlow, BitVec.ofNat_or]
  congr 1
  apply BitVec.eq_of_toNat_eq
  simp [zext64_eq_ofNat, Nat.shiftLeft_eq, Nat.mul_comm]

/-- Settles O38: each field of the dump ends below the bit at which the next one begins. -/
theorem rgReadShowsRegisters : Obligations.RgReadShowsRegisters := by
  unfold Obligations.RgReadShowsRegisters
  intro s
  have hacc := s.rg.acc.isLt
  have hcnt := s.rg.cnt.isLt
  have hinW := s.rg.inW.isLt
  have houtW := s.rg.outW.isLt
  have hpad := s.rg.pad.isLt
  have hdump : rgDump s.rg = BitVec.ofNat 64 (s.rg.err.toNat * 2 ^ 36 + (s.rg.pad.toNat * 2 ^ 32 +
      (s.rg.outW.toNat * 2 ^ 28 + (s.rg.inW.toNat * 2 ^ 24 + (s.rg.cnt.toNat * 2 ^ 16 + s.rg.acc.toNat))))) := by
    simp only [rgDump, BitVec.or_assoc, zext64_eq_ofNat s.rg.acc]
    iterate 5 rw [zext64_shiftLeft_or_ofNat (by omega)]
  simp only [Nat.add_assoc, ← hdump]
  exact answers_of_onRg (f := showRg) rfl rfl (statusCode_lt .ok)

/-! RG_PUSH. -/

theorem pushSymbol_fits {sym : Byte} {u : RgUnit} (h : sym.toNat < 2 ^ u.inW.toNat) :
    pushSymbol sym u =
      ({ u with
          acc := BitVec.ofNat 15 (consume u.inW.toNat u.outW.toNat u.acc.toNat u.cnt.toNat sym.toNat).1
          cnt := BitVec.ofNat 4 (consume u.inW.toNat u.outW.toNat u.acc.toNat u.cnt.toNat sym.toNat).2.1 },
        groupsResponse (consume u.inW.toNat u.outW.toNat u.acc.toNat u.cnt.toNat sym.toNat).2.2) := by
  simp [pushSymbol, symbolFits, h]

theorem pushSymbol_wide {sym : Byte} {u : RgUnit} (h : 2 ^ u.inW.toNat ≤ sym.toNat) :
    pushSymbol sym u = raiseRg .operand u := by
  simp [pushSymbol, symbolFits, Nat.not_lt.mpr h]

/-- Settles O35: `RG_PUSH` is decided by the latch, then by the symbol's width. -/
theorem pushConsumesOrRejects : Obligations.PushConsumesOrRejects := by
  unfold Obligations.PushConsumesOrRejects
  intro s sym c
  refine ⟨fun hfree _ hsym => ?_, fun hfree hsym => ?_, answers_of_latchedRg (f := pushSymbol sym) rfl⟩
  · exact answers_of_freeRg rfl hfree (pushSymbol_fits hsym) (statusCode_lt .ok)
  · exact answers_of_freeRg rfl hfree ((pushSymbol_wide hsym).trans (raiseRg_free hfree .operand)) (by decide)

/-! RG_FIN. -/

theorem groupsResponse_singleton (g : Byte) : groupsResponse [g] = ⟨0#4, 1#4, BitVec.ofNat 64 g.toNat⟩ := by
  simp [groupsResponse, packGroups, zext64_eq_ofNat, statusCode]

theorem leftAligned_toNat {u : RgUnit} (h : u.outW.toNat ≤ 8) :
    (leftAligned u).toNat = (u.acc.toNat <<< (u.outW.toNat - u.cnt.toNat)) &&& (2 ^ u.outW.toNat - 1) := by
  have hpow : 2 ^ u.outW.toNat ≤ 2 ^ 8 := Nat.pow_le_pow_right (by decide) h
  have hlt := Nat.mod_lt (u.acc.toNat <<< (u.outW.toNat - u.cnt.toNat)) (Nat.two_pow_pos u.outW.toNat)
  rw [leftAligned, and_mask, Nat.and_two_pow_sub_one_eq_mod]
  exact Nat.mod_eq_of_lt (hlt.trans_le hpow)

theorem finishInput_padded {u : RgUnit} (h : u.pad = 1#1) :
    finishInput u = (emptyBuffer u, groupsResponse (if u.cnt = 0#4 then [] else [leftAligned u])) :=
  if_pos h

theorem finishInput_excess {u : RgUnit} (hpad : u.pad ≠ 1#1) (h : u.inW.toNat ≤ u.cnt.toNat) :
    finishInput u = raiseRg .padExcess u := by
  simp [finishInput, hpad, BitVec.le_def, h]

theorem finishInput_nonzero {u : RgUnit} (hpad : u.pad ≠ 1#1) (h : u.cnt.toNat < u.inW.toNat) (hacc : u.acc ≠ 0#15) :
    finishInput u = raiseRg .padNonzero u := by
  simp [finishInput, hpad, BitVec.le_def, Nat.not_le.mpr h, hacc]

theorem finishInput_zero {u : RgUnit} (hpad : u.pad ≠ 1#1) (h : u.cnt.toNat < u.inW.toNat) (hacc : u.acc = 0#15) :
    finishInput u = (emptyBuffer u, ⟨0#4, 0#4, 0#64⟩) := by
  simp [finishInput, hpad, BitVec.le_def, Nat.not_le.mpr h, hacc]
  rfl

/-- Settles O36: `RG_FIN` is decided by the latch, then by the mode, then by the two tests of R109. -/
theorem finAppliesPaddingRule : Obligations.FinAppliesPaddingRule := by
  unfold Obligations.FinAppliesPaddingRule
  intro s leftover emptied
  have unpadded {pad : BitVec 1} (h : pad = 0#1) : pad ≠ 1#1 := by simp [h]
  refine ⟨fun hfree hpad hlegal => ?_, fun hfree hpad hle => ?_, fun hfree hpad hlt hacc => ?_,
    fun hfree hpad hlt hacc => ?_, answers_of_latchedRg (f := finishInput) rfl⟩
  · obtain ⟨-, ⟨-, houtW⟩, -⟩ := hlegal
    have hleftover : (leftAligned s.rg).toNat = leftover := leftAligned_toNat houtW
    refine answers_of_freeRg rfl hfree ((finishInput_padded hpad).trans (congrArg _ ?_)) ?_
    · by_cases hcnt : s.rg.cnt = 0#4
      · simp [hcnt, groupsResponse, packGroups, statusCode]
      · have hpos : 0 < s.rg.cnt.toNat := Nat.pos_of_ne_zero fun h => hcnt (BitVec.eq_of_toNat_eq h)
        simp only [hcnt, hpos, if_false, if_true, groupsResponse_singleton, hleftover]
    · split <;> exact statusCode_lt .ok
  · exact answers_of_freeRg rfl hfree ((finishInput_excess (unpadded hpad) hle).trans (raiseRg_free hfree _)) (by decide)
  · exact answers_of_freeRg rfl hfree ((finishInput_nonzero (unpadded hpad) hlt hacc).trans (raiseRg_free hfree _)) (by decide)
  · exact answers_of_freeRg rfl hfree (finishInput_zero (unpadded hpad) hlt hacc) (by decide)

/-- The left-aligned leftover is the `c` bits left, moved to the top of a group of `w` bits. -/
theorem shift_mod_eq_low_bits {c w : Nat} (h : c ≤ w) (b : Nat) : b * 2 ^ (w - c) % 2 ^ w = b % 2 ^ c * 2 ^ (w - c) := by
  have hw : 2 ^ w = 2 ^ c * 2 ^ (w - c) := by rw [← Nat.pow_add, Nat.add_sub_cancel' h]
  rw [hw, Nat.mul_mod_mul_right]

/-- Settles O37: the clauses of `finAppliesPaddingRule`; in a legal state the leftover is `RG_ACC` moved up, so it is zero only with it. -/
theorem finUnpaddedTests : Obligations.FinUnpaddedTests := by
  unfold Obligations.FinUnpaddedTests
  intro s hlegal hfree hpad leftover
  have hiff : leftover ≠ 0 ↔ s.rg.acc ≠ 0#15 := by
    obtain ⟨-, -, hcnt, hacc, -⟩ := hlegal
    have hleftover : leftover = s.rg.acc.toNat * 2 ^ (s.rg.outW.toNat - s.rg.cnt.toNat) := by
      simp only [leftover]
      rw [Nat.and_two_pow_sub_one_eq_mod, Nat.shiftLeft_eq, shift_mod_eq_low_bits hcnt.le, Nat.mod_eq_of_lt hacc]
    simp [hleftover, BitVec.toNat_eq]
  obtain ⟨-, hexcess, hnonzero, hzero, -⟩ := finAppliesPaddingRule s
  refine ⟨hiff, ?_⟩
  by_cases hle : s.rg.inW.toNat ≤ s.rg.cnt.toNat
  · exact ⟨_, _, hexcess hfree hpad hle, by simp [hle]⟩
  · by_cases hacc : s.rg.acc = 0#15
    · exact ⟨_, _, hzero hfree hpad (Nat.lt_of_not_le hle) hacc, by simp [hle, hiff, hacc, hfree]⟩
    · exact ⟨_, _, hnonzero hfree hpad (Nat.lt_of_not_le hle) hacc, by simp [hle, hiff, hacc]⟩

end Sys2Proof.Machine

/-! ### The buffer as the low bits of the source document's (spec 41_regrouper R106, R115, R118, R119) -/

namespace Sys2Proof.Machine

/-- `u` with a buffer that holds the low `count` bits of a buffer that keeps every bit (R106). -/
def holding (u : RgUnit) (buffer count : Nat) : RgUnit :=
  { u with acc := BitVec.ofNat 15 (buffer % 2 ^ count), cnt := BitVec.ofNat 4 count }

section Holding

variable (u : RgUnit) (buffer count : Nat)

@[simp] theorem holding_inW : (holding u buffer count).inW = u.inW := rfl
@[simp] theorem holding_outW : (holding u buffer count).outW = u.outW := rfl
@[simp] theorem holding_pad : (holding u buffer count).pad = u.pad := rfl
@[simp] theorem holding_err : (holding u buffer count).err = u.err := rfl

variable {u count}

theorem holding_cnt_toNat (h : count < 8) : (holding u buffer count).cnt.toNat = count :=
  Nat.mod_eq_of_lt (by omega)

theorem holding_acc_toNat (h : count < 8) : (holding u buffer count).acc.toNat = buffer % 2 ^ count := by
  have hlt := Nat.mod_lt buffer (Nat.two_pow_pos count)
  have hpow : 2 ^ count ≤ 2 ^ 15 := Nat.pow_le_pow_right (by decide) (by omega)
  exact Nat.mod_eq_of_lt (hlt.trans_le hpow)

theorem RgUnit.Legal.holding (hlegal : u.Legal) (h : count < u.outW.toNat) : (holding u buffer count).Legal := by
  obtain ⟨hinW, houtW, -, -, herr⟩ := hlegal
  have hcount : count < 8 := h.trans_le houtW.2
  refine ⟨hinW, houtW, ?_, ?_, herr⟩
  · rwa [holding_cnt_toNat buffer hcount]
  · rw [holding_cnt_toNat buffer hcount, holding_acc_toNat buffer hcount]
    exact Nat.mod_lt _ (Nat.two_pow_pos _)

/-- A legal unit holds the low `RG_CNT` bits of its own buffer. -/
theorem RgUnit.Legal.holding_self (hlegal : u.Legal) : Machine.holding u u.acc.toNat u.cnt.toNat = u := by
  obtain ⟨-, -, -, hacc, -⟩ := hlegal
  simp [Machine.holding, Nat.mod_eq_of_lt hacc]

end Holding

/-- R106: a push does to the bits held what the source document does to the buffer that keeps every bit. -/
theorem pushSymbol_holding {u : RgUnit} (hlegal : u.Legal) {count : Nat} (hcount : count < u.outW.toNat) {x : Byte}
    (hx : x.toNat < 2 ^ u.inW.toNat) (buffer : Nat) :
    pushSymbol x (holding u buffer count) =
      (holding u (buffer * 2 ^ u.inW.toNat + x.toNat) (doc0Symbol u.inW.toNat u.outW.toNat buffer count x.toNat).2,
        groupsResponse ((doc0Symbol u.inW.toNat u.outW.toNat buffer count x.toNat).1.map (BitVec.ofNat 8))) := by
  obtain ⟨-, houtW, -⟩ := hlegal
  have hcount8 : count < 8 := hcount.trans_le houtW.2
  have hlow := shiftIn_low_bits hx buffer count
  have hleft : (doc0Symbol u.inW.toNat u.outW.toNat buffer count x.toNat).2 ≤ count + u.inW.toNat :=
    (Nat.le_add_left _ _).trans_eq (doc0Symbol_length _ _ _ _ _)
  rw [pushSymbol_fits (by simpa using hx), holding_inW, holding_outW, holding_acc_toNat _ hcount8,
    holding_cnt_toNat _ hcount8, consume_eq hx, doc0Symbol_low_bits _ _ _ hx, ← hlow,
    Nat.mod_mod_of_dvd _ (Nat.pow_dvd_pow 2 hleft)]
  rfl

/-- A push to a legal unit is the source document's conversion of the symbol, from the bits the unit holds. -/
theorem pushSymbol_legal {u : RgUnit} (hlegal : u.Legal) {x : Byte} (hx : x.toNat < 2 ^ u.inW.toNat) :
    pushSymbol x u =
      (holding u (u.acc.toNat * 2 ^ u.inW.toNat + x.toNat)
          (doc0Symbol u.inW.toNat u.outW.toNat u.acc.toNat u.cnt.toNat x.toNat).2,
        groupsResponse
          ((doc0Symbol u.inW.toNat u.outW.toNat u.acc.toNat u.cnt.toNat x.toNat).1.map (BitVec.ofNat 8))) := by
  obtain ⟨-, -, hcnt, -⟩ := id hlegal
  rw [← pushSymbol_holding hlegal hcnt hx, hlegal.holding_self]

/-- Settles O40: the quotient and the remainder by `OUT_W` (`doc0Symbol_length_eq_div`, `doc0Symbol_left_eq_mod`), which fit their
registers. -/
theorem pushCounts : Obligations.PushCounts := by
  unfold Obligations.PushCounts
  intro s sym hlegal hfree hsym
  obtain ⟨⟨-, hinW⟩, ⟨hpos, houtW⟩, hcnt, -⟩ := id hlegal
  refine ⟨_, _, answers_of_freeRg rfl hfree (pushSymbol_legal hlegal hsym) (statusCode_lt .ok), rfl, ?_, ?_⟩
  · rw [groupsResponse_count, List.length_map, doc0Symbol_length_eq_div _ _ _ _ hpos]
    exact (List.length_map _).trans_le (doc0Symbol_length_le _ _ hinW hcnt)
  · rw [holding_cnt_toNat _ ((doc0Symbol_left_lt _ _ _ _ hpos).trans_le houtW), doc0Symbol_left_eq_mod _ _ _ _ hpos]

/-! What every command keeps. -/

/-- The unit left is legal, and the response has at most `n` groups. -/
def LegalAnswer (n : Nat) (p : RgUnit × Response) : Prop := p.1.Legal ∧ p.2.count.toNat ≤ n

section LegalAnswer

variable {u : RgUnit} (hlegal : u.Legal)
include hlegal

theorem legalAnswer_raiseRg (n : Nat) {st : Status} (hst : st = .operand ∨ st = .padExcess ∨ st = .padNonzero) :
    LegalAnswer n (raiseRg st u) := by
  obtain ⟨hinW, houtW, hcnt, hacc, herr⟩ := hlegal
  refine ⟨⟨hinW, houtW, hcnt, hacc, ?_⟩, Nat.zero_le n⟩
  rw [raiseRg_unit]
  by_cases hfree : u.err = 0#4
  · obtain rfl | rfl | rfl := hst <;> simp [hfree, statusCode]
  · rwa [latch_taken hfree]

theorem legalAnswer_blockedRg {n : Nat} {f : RgUnit → RgUnit × Response} (hf : LegalAnswer n (f u)) :
    LegalAnswer n (blockedRg f u) := by
  by_cases hfree : u.err = 0#4
  · rwa [blockedRg_free hfree]
  · rw [blockedRg_latched hfree]
    exact ⟨hlegal, Nat.zero_le n⟩

theorem legalAnswer_configure (n : Nat) (iw ow : BitVec 4) (padf : BitVec 1) : LegalAnswer n (configure iw ow padf u) := by
  by_cases h : (1 ≤ iw.toNat ∧ iw.toNat ≤ 8) ∧ (1 ≤ ow.toNat ∧ ow.toNat ≤ 8)
  · rw [configure_legal h]
    obtain ⟨hiw, how⟩ := h
    exact ⟨⟨hiw, how, how.1, Nat.one_pos, .inl rfl⟩, Nat.zero_le n⟩
  · rw [configure_illegal h]
    exact legalAnswer_raiseRg hlegal n (.inl rfl)

theorem legal_emptyBuffer : (emptyBuffer u).Legal := by
  obtain ⟨-, ⟨hpos, -⟩, -⟩ := id hlegal
  exact hlegal.holding 0 hpos

theorem legalAnswer_clearRg (n : Nat) : LegalAnswer n (clearRg u) := by
  obtain ⟨hinW, houtW, hcnt, hacc, -⟩ := legal_emptyBuffer hlegal
  exact ⟨⟨hinW, houtW, hcnt, hacc, .inl rfl⟩, Nat.zero_le n⟩

theorem legalAnswer_pushSymbol (sym : Byte) : LegalAnswer 8 (pushSymbol sym u) := by
  obtain ⟨⟨-, hinW⟩, ⟨hpos, -⟩, hcnt, -⟩ := id hlegal
  by_cases hsym : sym.toNat < 2 ^ u.inW.toNat
  · rw [pushSymbol_legal hlegal hsym]
    have hlength := doc0Symbol_length_le u.acc.toNat sym.toNat hinW hcnt
    rw [← List.length_map (BitVec.ofNat 8)] at hlength
    exact ⟨hlegal.holding _ (doc0Symbol_left_lt _ _ _ _ hpos), (groupsResponse_count hlength).trans_le hlength⟩
  · rw [pushSymbol_wide (Nat.le_of_not_lt hsym)]
    exact legalAnswer_raiseRg hlegal 8 (.inl rfl)

theorem legalAnswer_finishInput : LegalAnswer 1 (finishInput u) := by
  by_cases hpad : u.pad = 1#1
  · rw [finishInput_padded hpad]
    refine ⟨legal_emptyBuffer hlegal, ?_⟩
    split
    · exact Nat.zero_le 1
    · exact le_rfl
  · by_cases hle : u.inW.toNat ≤ u.cnt.toNat
    · rw [finishInput_excess hpad hle]
      exact legalAnswer_raiseRg hlegal 1 (.inr (.inl rfl))
    · by_cases hacc : u.acc = 0#15
      · rw [finishInput_zero hpad (Nat.lt_of_not_le hle) hacc]
        exact ⟨legal_emptyBuffer hlegal, Nat.zero_le 1⟩
      · rw [finishInput_nonzero hpad (Nat.lt_of_not_le hle) hacc]
        exact legalAnswer_raiseRg hlegal 1 (.inr (.inr rfl))

end LegalAnswer

/-- The most groups one execution of a command answers (R119). -/
def maxGroups : Instr → Nat
  | .rgPush _ => 8
  | .rgFin => 1
  | _ => 0

/-- Every RG command leaves a legal unit legal and answers no more than its groups. -/
theorem exec_rg_legalAnswer {i : Instr} (hunit : i.unit = .rg) :
    ∃ f, (∀ s, exec i s = onRg f s) ∧ ∀ u : RgUnit, u.Legal → LegalAnswer (maxGroups i) (f u) := by
  cases i with
  | rgCfg iw ow padf => exact ⟨_, fun _ => rfl, fun u h => legalAnswer_configure h 0 iw ow padf⟩
  | rgClr => exact ⟨_, fun _ => rfl, fun u h => legalAnswer_clearRg h 0⟩
  | rgPush sym => exact ⟨_, fun _ => rfl, fun u h => legalAnswer_blockedRg h (legalAnswer_pushSymbol h sym)⟩
  | rgFin => exact ⟨_, fun _ => rfl, fun u h => legalAnswer_blockedRg h (legalAnswer_finishInput h)⟩
  | rgRead => exact ⟨showRg, fun _ => rfl, fun u h => ⟨h, Nat.zero_le 0⟩⟩
  | ckInit | ckHrph | ckHrpl | ckFold | ckFoldc | ckCheck | ckRead => simp [Instr.unit] at hunit

theorem blockedCk_count {f : CkUnit → CkUnit × Response} {u : CkUnit} (hf : (f u).2.count = 0#4) :
    (blockedCk f u).2.count = 0#4 := by
  unfold blockedCk
  split
  · rfl
  · exact hf

theorem foldPrefixChar_count (part : Byte → Sym) (ch : Byte) (u : CkUnit) : (foldPrefixChar part ch u).2.count = 0#4 := by
  unfold foldPrefixChar
  split <;> rfl

theorem foldDataChar_count (ch : Byte) (u : CkUnit) : (foldDataChar ch u).2.count = 0#4 := by
  unfold foldDataChar
  split <;> rfl

/-- No CK command answers a group. -/
theorem exec_ck_count {i : Instr} (hunit : i.unit = .ck) :
    ∃ f, (∀ s, exec i s = onCk f s) ∧ ∀ u : CkUnit, (f u).2.count = 0#4 := by
  cases i with
  | ckInit => exact ⟨startChecksum, fun _ => rfl, fun _ => rfl⟩
  | ckHrph ch => exact ⟨_, fun _ => rfl, fun u => blockedCk_count (foldPrefixChar_count charHigh ch u)⟩
  | ckHrpl ch => exact ⟨_, fun _ => rfl, fun u => blockedCk_count (foldPrefixChar_count charLow ch u)⟩
  | ckFold v => exact ⟨_, fun _ => rfl, fun u => blockedCk_count (f := foldAndShow v) rfl⟩
  | ckFoldc ch => exact ⟨_, fun _ => rfl, fun u => blockedCk_count (foldDataChar_count ch u)⟩
  | ckCheck var => exact ⟨_, fun _ => rfl, fun u => blockedCk_count (f := checkTarget var) rfl⟩
  | ckRead => exact ⟨showCk, fun _ => rfl, fun _ => rfl⟩
  | rgCfg | rgClr | rgPush | rgFin | rgRead => simp [Instr.unit] at hunit

/-- Every command leaves a legal RG unit legal and answers no more than its groups. -/
theorem exec_legalAnswer {i : Instr} {s t : State} {f : InFlight} (hlegal : s.rg.Legal) (hexec : exec i s = .next t)
    (hf : t.inFlight = some f) : LegalAnswer (maxGroups i) (t.rg, f.rsp) := by
  cases hunit : i.unit with
  | ck =>
    obtain ⟨g, hg, hcount⟩ := exec_ck_count hunit
    rw [hg, onCk_eq_next] at hexec
    obtain ⟨-, rfl⟩ := hexec
    obtain rfl : InFlight.mk (g s.ck).2 s.edge = f := by simpa using hf
    exact ⟨hlegal, by simp [hcount]⟩
  | rg =>
    obtain ⟨g, hg, hanswer⟩ := exec_rg_legalAnswer hunit
    rw [hg, onRg_eq_next] at hexec
    obtain ⟨-, rfl⟩ := hexec
    obtain rfl : InFlight.mk (g s.rg).2 s.edge = f := by simpa using hf
    exact hanswer s.rg hlegal

/-- Settles O42: the buffer with a symbol shifted in has at most `7 + 8` bits, and `exec_legalAnswer` bounds what a command leaves. -/
theorem bufferAndGroupBounds : Obligations.BufferAndGroupBounds := by
  unfold Obligations.BufferAndGroupBounds
  intro s hlegal
  refine ⟨fun sym hsym => ?_, fun i t f hexec hf => ?_⟩
  · obtain ⟨⟨-, hinW⟩, ⟨-, houtW⟩, hcnt, hacc, -⟩ := hlegal
    have hacc7 : s.rg.acc.toNat < 2 ^ 7 := hacc.trans_le (Nat.pow_le_pow_right (by decide) (by omega))
    have hinW8 : 2 ^ s.rg.inW.toNat ≤ 2 ^ 8 := Nat.pow_le_pow_right (by decide) hinW
    rw [← Nat.shiftLeft_add_eq_or_of_lt hsym, Nat.shiftLeft_eq]
    calc s.rg.acc.toNat * 2 ^ s.rg.inW.toNat + sym.toNat
        < s.rg.acc.toNat * 2 ^ s.rg.inW.toNat + 2 ^ s.rg.inW.toNat := Nat.add_lt_add_left hsym _
      _ = (s.rg.acc.toNat + 1) * 2 ^ s.rg.inW.toNat := (Nat.succ_mul _ _).symm
      _ ≤ 2 ^ 7 * 2 ^ 8 := Nat.mul_le_mul hacc7 hinW8
  · obtain ⟨⟨-, -, hcnt, hacc, -⟩, hcount⟩ := exec_legalAnswer hlegal hexec hf
    refine ⟨hacc.trans_le (Nat.pow_le_pow_right (by decide) (Nat.le_sub_one_of_lt hcnt)), ?_, ?_⟩
    · exact hcount.trans (by cases i <;> simp [maxGroups])
    · rintro rfl
      exact hcount

end Sys2Proof.Machine

/-! ### Sequences of regrouper commands (spec 41_regrouper R116, R117, R121) -/

namespace Sys2Proof.Machine

/-- The groups an end of the source document's conversion adds. -/
def doc0EndGroups : Doc0End → List Nat
  | .done gs => gs
  | .excessPadding => []
  | .nonzeroPadding => []

/-- What RG_FIN does where the source document's conversion ends so (R108, R109, R137, R138). -/
def doc0Answer (u : RgUnit) : Doc0End → RgUnit × Response
  | .done gs => (emptyBuffer u, groupsResponse (gs.map (BitVec.ofNat 8)))
  | .excessPadding => raiseRg .padExcess u
  | .nonzeroPadding => raiseRg .padNonzero u

/-- The groups a padded end adds (R108). -/
def paddedLeftover (outW buffer count : Nat) : List Nat :=
  if count = 0 then [] else [buffer * 2 ^ (outW - count) % 2 ^ outW]

theorem paddedLeftover_length (outW buffer count : Nat) :
    (paddedLeftover outW buffer count).length = if count = 0 then 0 else 1 := by
  unfold paddedLeftover
  split <;> rfl

theorem paddedLeftover_group_lt (outW buffer count : Nat) : ∀ g ∈ paddedLeftover outW buffer count, g < 2 ^ outW := by
  unfold paddedLeftover
  split <;> simp [Nat.mod_lt]

theorem doc0Finish_padded (inW outW buffer count : Nat) :
    doc0Finish inW outW true buffer count = .done (paddedLeftover outW buffer count) := rfl

section Unpadded

variable {inW outW count : Nat}

theorem doc0Finish_excess (h : inW ≤ count) (buffer : Nat) : doc0Finish inW outW false buffer count = .excessPadding := by
  simp [doc0Finish, h]

/-- R109's second test reads the `count` bits left. -/
theorem doc0Finish_short (hlt : count < inW) (hle : count ≤ outW) (buffer : Nat) :
    doc0Finish inW outW false buffer count = if buffer % 2 ^ count = 0 then .done [] else .nonzeroPadding := by
  simp [doc0Finish, Nat.not_le.mpr hlt, shift_mod_eq_low_bits hle, ite_not]

end Unpadded

theorem doc0EndGroups_unpadded (inW outW buffer count : Nat) :
    doc0EndGroups (doc0Finish inW outW false buffer count) = [] := by
  by_cases hle : inW ≤ count
  · rw [doc0Finish_excess hle]; rfl
  · simp only [doc0Finish, hle, if_false, Bool.false_eq_true]
    split <;> rfl

/-- An end adds at most one group, of `outW` bits. -/
theorem doc0EndGroups_bounds (inW outW : Nat) (padded : Bool) (buffer count : Nat) :
    (doc0EndGroups (doc0Finish inW outW padded buffer count)).length ≤ 1 ∧
      ∀ g ∈ doc0EndGroups (doc0Finish inW outW padded buffer count), g < 2 ^ outW := by
  cases padded with
  | false => simp [doc0EndGroups_unpadded]
  | true =>
    rw [doc0Finish_padded, doc0EndGroups, paddedLeftover_length]
    exact ⟨by split <;> decide, paddedLeftover_group_lt outW buffer count⟩

theorem doc0Answer_status_lt (u : RgUnit) (e : Doc0End) : (doc0Answer u e).2.status.toNat < 8 := by
  cases e with
  | done gs => exact statusCode_lt .ok
  | excessPadding => exact statusCode_lt .padExcess
  | nonzeroPadding => exact statusCode_lt .padNonzero

theorem groupsOf_doc0Answer (u : RgUnit) {e : Doc0End} {w : Nat} (hw : w ≤ 8) (hlength : (doc0EndGroups e).length ≤ 1)
    (hgroups : ∀ g ∈ doc0EndGroups e, g < 2 ^ w) :
    (groupsOf (doc0Answer u e).2).map BitVec.toNat = doc0EndGroups e := by
  cases e with
  | done gs =>
    have hlength8 : (gs.map (BitVec.ofNat 8)).length ≤ 8 := by rw [List.length_map]; exact hlength.trans (by decide)
    exact (congrArg _ (groupsOf_groupsResponse hlength8)).trans (map_toNat_ofNat_groups hw hgroups)
  | excessPadding => rfl
  | nonzeroPadding => rfl

/-- R116's last command: RG_FIN on the bits held does what the end of the source document's conversion does. -/
theorem finishInput_holding {u : RgUnit} (hlegal : u.Legal) {count : Nat} (hcount : count < u.outW.toNat) (buffer : Nat) :
    finishInput (holding u buffer count) =
      doc0Answer (holding u buffer count)
        (doc0Finish u.inW.toNat u.outW.toNat (u.pad = 1#1) buffer count) := by
  obtain ⟨-, ⟨-, houtW⟩, -⟩ := hlegal
  have hcount8 : count < 8 := hcount.trans_le houtW
  have hcnt := holding_cnt_toNat (u := u) buffer hcount8
  have hacc := holding_acc_toNat (u := u) buffer hcount8
  by_cases hpad : u.pad = 1#1
  · have hempty : (holding u buffer count).cnt = 0#4 ↔ count = 0 := by rw [← BitVec.toNat_inj, hcnt]; rfl
    have hleft : leftAligned (holding u buffer count) = BitVec.ofNat 8 (buffer * 2 ^ (u.outW.toNat - count) % 2 ^ u.outW.toNat) := by
      rw [leftAligned, and_mask, Nat.shiftLeft_eq, hcnt, hacc, holding_outW, shift_mod_eq_low_bits hcount.le,
        shift_mod_eq_low_bits hcount.le, Nat.mod_mod]
    rw [finishInput_padded (u := holding u buffer count) hpad, decide_eq_true hpad, doc0Finish_padded]
    simp only [doc0Answer, paddedLeftover, hempty, hleft]
    split <;> rfl
  · rw [decide_eq_false hpad]
    by_cases hle : u.inW.toNat ≤ count
    · rw [finishInput_excess (u := holding u buffer count) hpad (hle.trans_eq hcnt.symm), doc0Finish_excess hle]
      rfl
    · have hlt : count < u.inW.toNat := Nat.lt_of_not_le hle
      have hzero : (holding u buffer count).acc = 0#15 ↔ buffer % 2 ^ count = 0 := by rw [← BitVec.toNat_inj, hacc]; rfl
      rw [doc0Finish_short hlt hcount.le]
      by_cases hlow : buffer % 2 ^ count = 0
      · rw [finishInput_zero (u := holding u buffer count) hpad (hcnt.trans_lt hlt) (hzero.mpr hlow), if_pos hlow]
        rfl
      · rw [finishInput_nonzero (u := holding u buffer count) hpad (hcnt.trans_lt hlt) (hlow ∘ hzero.mp), if_neg hlow]
        rfl

/-- Every state whose RG unit is `u` answers the commands `is` with the responses `rs`, in order, and ends with the RG unit `u'`. -/
def RgRun (is : List Instr) (u u' : RgUnit) (rs : List Response) : Prop :=
  ∀ s : State, s.rg = u → ∃ t, transactAll (is.map encode) s = some (t, rs) ∧ t.rg = u'

theorem RgRun.nil (u : RgUnit) : RgRun [] u u [] :=
  fun s hs => ⟨s, rfl, hs⟩

/-- One command. -/
theorem RgRun.single {i : Instr} {u u' : RgUnit} {r : Response} (h : ∀ s : State, s.rg = u → Answers i s s.ck u' r) :
    RgRun [i] u u' [r] :=
  fun s hs => ⟨_, transactAll_cons (transact_encode (h s hs)), rfl⟩

theorem RgRun.append {is js : List Instr} {u u' u'' : RgUnit} {rs rs' : List Response} (h : RgRun is u u' rs)
    (h' : RgRun js u' u'' rs') : RgRun (is ++ js) u u'' (rs ++ rs') := by
  intro s hs
  obtain ⟨t, hrun, hrg⟩ := h s hs
  obtain ⟨v, hrun', hrg'⟩ := h' t hrg
  refine ⟨v, ?_, hrg'⟩
  rw [List.map_append]
  exact transactAll_append hrun hrun'

theorem pushWords_eq (xs : List Byte) : pushWords xs = (xs.map .rgPush).map encode := by
  simp [pushWords]

@[simp] theorem groupsOfAll_cons (r : Response) (rs : List Response) : groupsOfAll (r :: rs) = groupsOf r ++ groupsOfAll rs := rfl

@[simp] theorem groupsOfAll_singleton (r : Response) : groupsOfAll [r] = groupsOf r := List.append_nil _

@[simp] theorem groupsOfAll_append (rs rs' : List Response) : groupsOfAll (rs ++ rs') = groupsOfAll rs ++ groupsOfAll rs' :=
  List.flatMap_append

/-- The source document's conversion of symbols with the widths of the unit. -/
abbrev doc0Of (u : RgUnit) (buffer count : Nat) (xs : List Byte) : List Nat × Nat × Nat :=
  doc0Convert u.inW.toNat u.outW.toNat buffer count (xs.map BitVec.toNat)

section Run

variable {u : RgUnit} (hlegal : u.Legal) (hfree : u.err = 0#4)
include hlegal hfree

theorem rgRun_push {count : Nat} (hcount : count < u.outW.toNat) {x : Byte} (hx : x.toNat < 2 ^ u.inW.toNat) (buffer : Nat) :
    RgRun [.rgPush x] (holding u buffer count)
      (holding u (buffer * 2 ^ u.inW.toNat + x.toNat) (doc0Symbol u.inW.toNat u.outW.toNat buffer count x.toNat).2)
      [groupsResponse ((doc0Symbol u.inW.toNat u.outW.toNat buffer count x.toNat).1.map (BitVec.ofNat 8))] := by
  refine RgRun.single fun s hs => answers_of_freeRg rfl (hs ▸ hfree) ?_ (statusCode_lt .ok)
  rw [hs, pushSymbol_holding hlegal hcount hx]

/-- Pushing symbols keeps the low bits of the source document's buffer and answers its groups. -/
theorem rgRun_pushes {xs : List Byte} (hxs : ∀ x ∈ xs, x.toNat < 2 ^ u.inW.toNat) {count : Nat} (hcount : count < u.outW.toNat)
    (buffer : Nat) :
    ∃ rs, RgRun (xs.map .rgPush) (holding u buffer count)
        (holding u (doc0Of u buffer count xs).2.1 (doc0Of u buffer count xs).2.2) rs ∧
      (∀ r ∈ rs, r.status = 0#4) ∧ (groupsOfAll rs).map BitVec.toNat = (doc0Of u buffer count xs).1 := by
  induction xs generalizing buffer count with
  | nil => exact ⟨[], RgRun.nil _, by simp, rfl⟩
  | cons x xs ih =>
    obtain ⟨⟨-, hinW⟩, ⟨hpos, houtW⟩, -⟩ := id hlegal
    obtain ⟨hx, hrest⟩ := List.forall_mem_cons.mp hxs
    obtain ⟨rs, hrun, hok, hgroups⟩ :=
      ih hrest (doc0Symbol_left_lt u.inW.toNat buffer count x.toNat hpos) (buffer * 2 ^ u.inW.toNat + x.toNat)
    have hhead := doc0Symbol_length_le buffer x.toNat hinW hcount
    rw [← List.length_map (BitVec.ofNat 8)] at hhead
    refine ⟨_, (rgRun_push hlegal hfree hcount hx buffer).append hrun, ?_, ?_⟩
    · exact List.forall_mem_cons.mpr ⟨rfl, hok⟩
    · simp only [List.singleton_append, groupsOfAll_cons, List.map_append, hgroups, groupsOf_groupsResponse hhead]
      rw [map_toNat_ofNat_groups houtW (doc0Symbol_group_lt _ _ _ _ _)]
      rfl

theorem rgRun_fin {count : Nat} (hcount : count < u.outW.toNat) (buffer : Nat) :
    RgRun [.rgFin] (holding u buffer count)
      (doc0Answer (holding u buffer count) (doc0Finish u.inW.toNat u.outW.toNat (u.pad = 1#1) buffer count)).1
      [(doc0Answer (holding u buffer count) (doc0Finish u.inW.toNat u.outW.toNat (u.pad = 1#1) buffer count)).2] := by
  refine RgRun.single fun s hs => answers_of_freeRg rfl (hs ▸ hfree) ?_ (doc0Answer_status_lt _ _)
  rw [hs, finishInput_holding hlegal hcount]

end Run

end Sys2Proof.Machine

/-! ### Whole conversions (spec 41_regrouper R116, R117, R120, R121) -/

namespace Sys2Proof.Machine

/-- How the source document's conversion of symbols from an empty buffer ends, with the widths and the mode of the unit. -/
abbrev doc0EndOf (u : RgUnit) (xs : List Byte) : Doc0End :=
  doc0Finish u.inW.toNat u.outW.toNat (u.pad = 1#1) (doc0Of u 0 0 xs).2.1 (doc0Of u 0 0 xs).2.2

/-- The answer of RG_FIN after the symbols. -/
abbrev finAnswer (u : RgUnit) (xs : List Byte) : RgUnit × Response :=
  doc0Answer (holding u (doc0Of u 0 0 xs).2.1 (doc0Of u 0 0 xs).2.2) (doc0EndOf u xs)

theorem RgUnit.Legal.holding_empty {u : RgUnit} (hlegal : u.Legal) (hcnt : u.cnt = 0#4) : Machine.holding u 0 0 = u := by
  have hself := hlegal.holding_self
  obtain ⟨-, -, -, hacc, -⟩ := hlegal
  have hzero : u.acc.toNat = 0 := by simpa [hcnt] using hacc
  rwa [hzero, hcnt] at hself

section Conversion

variable {u : RgUnit} (hlegal : u.Legal) (hfree : u.err = 0#4) (hcnt : u.cnt = 0#4) {xs : List Byte}
  (hxs : ∀ x ∈ xs, x.toNat < 2 ^ u.inW.toNat)
include hlegal

theorem groupsOf_finAnswer (xs : List Byte) :
    (groupsOf (finAnswer u xs).2).map BitVec.toNat = doc0EndGroups (doc0EndOf u xs) := by
  obtain ⟨-, ⟨-, houtW⟩, -⟩ := hlegal
  obtain ⟨hlength, hgroups⟩ := doc0EndGroups_bounds u.inW.toNat u.outW.toNat (u.pad = 1#1)
    (doc0Of u 0 0 xs).2.1 (doc0Of u 0 0 xs).2.2
  exact groupsOf_doc0Answer _ houtW hlength hgroups

include hfree hcnt hxs

/-- R116: the pushes succeed, RG_FIN answers what the source document's end says, and the groups are the source document's. -/
theorem rgRun_conversion :
    ∃ rs, RgRun (xs.map .rgPush ++ [.rgFin]) u (finAnswer u xs).1 (rs ++ [(finAnswer u xs).2]) ∧
      (∀ r ∈ rs, r.status = 0#4) ∧
      (groupsOfAll (rs ++ [(finAnswer u xs).2])).map BitVec.toNat = (doc0Of u 0 0 xs).1 ++ doc0EndGroups (doc0EndOf u xs) := by
  obtain ⟨-, ⟨hpos, -⟩, -⟩ := id hlegal
  obtain ⟨rs, hrun, hok, hgroups⟩ := rgRun_pushes hlegal hfree hxs hpos 0
  rw [hlegal.holding_empty hcnt] at hrun
  refine ⟨rs, hrun.append (rgRun_fin hlegal hfree (doc0Convert_left_lt _ hpos 0 _) _), hok, ?_⟩
  rw [groupsOfAll_append, List.map_append, hgroups, groupsOfAll_singleton, groupsOf_finAnswer hlegal xs]

end Conversion

/-- Settles O54: the pushes simulate the source document's conversion on the low bits of its buffer (`pushSymbol_holding`), and RG_FIN its
end (`finishInput_holding`). -/
theorem regroupingEqualsDoc0 : Obligations.RegroupingEqualsDoc0 := by
  unfold Obligations.RegroupingEqualsDoc0
  intro s xs hlegal hfree hcnt hxs d
  obtain ⟨rs, hrun, hok, hgroups⟩ := rgRun_conversion hlegal hfree hcnt hxs
  obtain ⟨t, hall, hrg⟩ := hrun s rfl
  rw [List.map_append, ← pushWords_eq] at hall
  have hend : doc0Finish s.rg.inW.toNat s.rg.outW.toNat (s.rg.pad = 1#1) d.2.1 d.2.2 = doc0EndOf s.rg xs := rfl
  refine ⟨t, rs, (finAnswer s.rg xs).2, hall, hok, ?_⟩
  rw [hgroups, hrg, hend, finAnswer]
  cases doc0EndOf s.rg xs with
  | done gs => exact ⟨rfl, rfl, rfl, rfl⟩
  | excessPadding => exact ⟨rfl, List.append_nil _⟩
  | nonzeroPadding => exact ⟨rfl, List.append_nil _⟩

end Sys2Proof.Machine

/-! ### The two directions of the address formats (spec 41_regrouper R117, R120, R121) -/

namespace Sys2Proof.Machine

/-! A conversion that pads, and the one that takes the padding off again, in the source document's terms. -/

/-- All groups of a padded conversion from an empty buffer. -/
def doc0Padded (inW outW : Nat) (xs : List Nat) : List Nat :=
  (doc0Convert inW outW 0 0 xs).1 ++
    paddedLeftover outW (doc0Convert inW outW 0 0 xs).2.1 (doc0Convert inW outW 0 0 xs).2.2

theorem doc0Padded_group_lt (inW outW : Nat) (xs : List Nat) : ∀ g ∈ doc0Padded inW outW xs, g < 2 ^ outW :=
  List.forall_mem_append.mpr ⟨doc0Convert_group_lt _ _ _ _ _, paddedLeftover_group_lt _ _ _⟩

/-- The bits of `v` but its last `c`, followed by a group with those at its top, are `v` followed by the group's zero bits. -/
theorem div_followedBy_leftAligned {c w : Nat} (h : c ≤ w) (v : Nat) :
    v / 2 ^ c * 2 ^ w + v * 2 ^ (w - c) % 2 ^ w = v * 2 ^ (w - c) := by
  have hpow : 2 ^ w = 2 ^ c * 2 ^ (w - c) := by rw [← Nat.pow_add, Nat.add_sub_cancel' h]
  have hdiv : v / 2 ^ c = v * 2 ^ (w - c) / 2 ^ w := by rw [hpow, Nat.mul_div_mul_right _ _ (Nat.two_pow_pos _)]
  rw [hdiv, Nat.div_add_mod']

/-- The groups of a padded conversion are the symbols' bits, followed by fewer zero bits than a group has. -/
theorem doc0Padded_bits (inW : Nat) {outW : Nat} (hpos : 0 < outW) {xs : List Nat} (hxs : ∀ x ∈ xs, x < 2 ^ inW) :
    ∃ pad < outW, (doc0Padded inW outW xs).length * outW = inW * xs.length + pad ∧
      bitsValue outW (doc0Padded inW outW xs) = bitsValue inW xs * 2 ^ pad := by
  have hlength := doc0Convert_length inW outW 0 0 xs
  have hleft := doc0Convert_left_lt inW hpos 0 xs
  have hbits := doc0Convert_empty_bits inW outW hxs
  have hbuffer : (doc0Convert inW outW 0 0 xs).2.1 = bitsValue inW xs := doc0Convert_buffer inW outW 0 0 xs
  rw [doc0Padded, hbuffer]
  generalize doc0Convert inW outW 0 0 xs = d at hlength hleft hbits ⊢
  by_cases hzero : d.2.2 = 0
  · rw [hzero, Nat.pow_zero, Nat.div_one] at hbits
    refine ⟨0, hpos, ?_, ?_⟩
    · simp only [paddedLeftover, hzero, if_true, List.append_nil]
      omega
    · simp [paddedLeftover, hzero, hbits]
  · refine ⟨outW - d.2.2, by omega, ?_, ?_⟩
    · simp only [paddedLeftover, hzero, if_false, List.length_append, List.length_singleton, Nat.add_mul, Nat.one_mul]
      omega
    · rw [← div_followedBy_leftAligned hleft.le, hbits]
      simp [paddedLeftover, hzero, bitsValue_eq_followedBy]

/-- A conversion to `outW` bits of groups that are the bits of `bs`, `outW` each, and fewer zero bits than that, gives `bs` and leaves the
zero bits. -/
theorem doc0Convert_unpad {inW outW pad : Nat} (hpad : pad < outW) {gs bs : List Nat} (hgs : ∀ g ∈ gs, g < 2 ^ inW)
    (hbs : ∀ b ∈ bs, b < 2 ^ outW) (hlength : gs.length * inW = outW * bs.length + pad)
    (hvalue : bitsValue inW gs = bitsValue outW bs * 2 ^ pad) :
    doc0Convert inW outW 0 0 gs = (bs, bitsValue outW bs * 2 ^ pad, pad) := by
  have hpos : 0 < outW := by omega
  have hbuffer : (doc0Convert inW outW 0 0 gs).2.1 = bitsValue inW gs := doc0Convert_buffer inW outW 0 0 gs
  have hsame : (doc0Convert inW outW 0 0 gs).2.2 = pad := by
    rw [doc0Convert_left_eq_mod inW hpos, Nat.zero_add, Nat.mul_comm, hlength, Nat.mul_add_mod, Nat.mod_eq_of_lt hpad]
  have hnumber : (doc0Convert inW outW 0 0 gs).1.length = bs.length := by
    rw [doc0Convert_length_eq_div inW hpos, Nat.zero_add, Nat.mul_comm, hlength, Nat.mul_add_div hpos, Nat.div_eq_of_lt hpad,
      Nat.add_zero]
  have hbits := doc0Convert_empty_bits inW outW hgs
  have hgroups := doc0Convert_group_lt inW outW 0 0 gs
  generalize doc0Convert inW outW 0 0 gs = d at *
  rw [hvalue, hsame, Nat.mul_div_cancel _ (Nat.two_pow_pos pad)] at hbits
  have hfirst : d.1 = bs := bitsValue_inj hpos.ne' hnumber hgroups hbs hbits.symm
  rw [← hvalue, ← hbuffer, ← hsame, ← hfirst]

/-- Zero bits left that are fewer than a symbol are accepted. -/
theorem doc0Finish_zero_bits {inW outW pad : Nat} (hlt : pad < inW) (hle : pad ≤ outW) (v : Nat) :
    doc0Finish inW outW false (v * 2 ^ pad) pad = .done [] := by
  rw [doc0Finish_short hlt hle, if_pos (Nat.mul_mod_left _ _)]

/-! The block's runs. -/

/-- The numbers of 5-bit symbols that leave a whole symbol or more over a multiple of 8 bits (R117). -/
theorem five_le_mul_mod_eight (k : Nat) : 5 ≤ 5 * k % 8 ↔ k % 8 = 1 ∨ k % 8 = 3 ∨ k % 8 = 6 := by
  have hsmall : ∀ m < 8, 5 ≤ 5 * m % 8 ↔ m = 1 ∨ m = 3 ∨ m = 6 := by decide
  rw [← Nat.mul_mod_mod]
  exact hsmall (k % 8) (Nat.mod_lt k (by decide))

theorem groupsOf_length (r : Response) : (groupsOf r).length = r.count.toNat := by
  simp [groupsOf]

/-- Settles O56: the counts are those of the source document's conversion, and RG_FIN's tests those of `finUnpaddedTests`. -/
theorem fiveToEightCounts : Obligations.FiveToEightCounts := by
  unfold Obligations.FiveToEightCounts
  intro s xs hlegal hinW houtW hpad hfree hcnt hxs k
  have hinW5 : s.rg.inW.toNat = 5 := congrArg BitVec.toNat hinW
  have houtW8 : s.rg.outW.toNat = 8 := congrArg BitVec.toNat houtW
  have hpos : 0 < s.rg.outW.toNat := by omega
  obtain ⟨rs, hrun, -, hgroups⟩ := rgRun_pushes hlegal hfree (by simpa [hinW5] using hxs) hpos 0
  rw [hlegal.holding_empty hcnt] at hrun
  obtain ⟨t, hall, hrg⟩ := hrun s rfl
  rw [← pushWords_eq] at hall
  have hlength : (groupsOfAll rs).length = 5 * k / 8 := by
    rw [← List.length_map BitVec.toNat, hgroups, doc0Convert_length_eq_div _ hpos, hinW5, houtW8, Nat.zero_add, List.length_map]
  have hleft := doc0Convert_left_lt s.rg.inW.toNat hpos 0 (xs.map BitVec.toNat)
  have htcnt : t.rg.cnt.toNat = 5 * k % 8 := by
    rw [hrg, holding_cnt_toNat _ (hleft.trans_eq houtW8), doc0Convert_left_eq_mod _ hpos, hinW5, houtW8, Nat.zero_add,
      List.length_map]
  obtain ⟨hiff, rg, r, hanswers, htests⟩ := finUnpaddedTests t (hrg ▸ hlegal.holding _ hleft)
    (by rw [hrg, holding_err, hfree]) (by rw [hrg, holding_pad, hpad])
  refine ⟨t, rs, hall, hlength, htcnt, _, r, transact_encode hanswers, ?_⟩
  have htinW : t.rg.inW.toNat = 5 := by rw [hrg, holding_inW, hinW5]
  rw [← five_le_mul_mod_eight, ← htcnt]
  simp only [hiff, htinW] at htests
  by_cases hle : 5 ≤ t.rg.cnt.toNat
  · rw [if_pos hle] at htests
    simp [htests, hle]
  · rw [if_neg hle] at htests
    by_cases hacc : t.rg.acc = 0#15
    · rw [if_neg (not_not_intro hacc)] at htests
      simp [htests, hle, hacc]
    · rw [if_pos hacc] at htests
      simp [htests, hle, hacc]

/-- The unit RG_CFG leaves (R110). -/
abbrev configured (iw ow : BitVec 4) (padf : BitVec 1) : RgUnit := ⟨0#15, 0#4, iw, ow, padf, 0#4⟩

theorem regroupWords_eq (iw ow : BitVec 4) (padf : BitVec 1) (xs : List Byte) :
    regroupWords iw ow padf xs = (Instr.rgCfg iw ow padf :: (xs.map .rgPush ++ [.rgFin])).map encode := by
  simp [regroupWords, pushWords_eq]

/-- R116 from any state, by way of RG_CFG, where the source document's conversion succeeds: every response is OK, and the groups are the
source document's, of which RG_FIN answers those the end adds. -/
theorem transactAll_regroupWords {iw ow : BitVec 4} (hwidths : (1 ≤ iw.toNat ∧ iw.toNat ≤ 8) ∧ (1 ≤ ow.toNat ∧ ow.toNat ≤ 8))
    {padf : BitVec 1} {xs : List Byte} (hxs : ∀ x ∈ xs, x.toNat < 2 ^ iw.toNat) {gs : List Nat}
    (hdone : doc0EndOf (configured iw ow padf) xs = .done gs) (s : State) :
    ∃ t rs last, transactAll (regroupWords iw ow padf xs) s = some (t, rs ++ [last]) ∧ (∀ r ∈ rs ++ [last], r.status = 0#4) ∧
      (groupsOfAll (rs ++ [last])).map BitVec.toNat = (doc0Of (configured iw ow padf) 0 0 xs).1 ++ gs ∧
      last.count.toNat = gs.length := by
  obtain ⟨hiw, how⟩ := id hwidths
  have hlegal : (configured iw ow padf).Legal := ⟨hiw, how, how.1, Nat.one_pos, .inl rfl⟩
  have hcfg : RgRun [.rgCfg iw ow padf] s.rg (configured iw ow padf) [⟨0#4, 0#4, 0#64⟩] :=
    RgRun.single fun s _ => (cfgConfiguresOrRejects s iw ow padf).1 hwidths
  obtain ⟨rs, hrun, hok, hgroups⟩ := rgRun_conversion hlegal rfl rfl hxs
  obtain ⟨t, hall, -⟩ := hcfg.append hrun s rfl
  have hlast := groupsOf_finAnswer hlegal xs
  have hfin : (finAnswer (configured iw ow padf) xs).2.status = 0#4 := by rw [finAnswer, hdone]; rfl
  rw [hdone] at hgroups hlast
  refine ⟨t, ⟨0#4, 0#4, 0#64⟩ :: rs, (finAnswer (configured iw ow padf) xs).2, ?_, ?_, hgroups, ?_⟩
  · rw [regroupWords_eq]
    exact hall
  · simpa [or_imp, forall_and, hfin] using hok
  · rw [← groupsOf_length, ← List.length_map BitVec.toNat, hlast]
    rfl

/-- The 8-to-5 direction with padding, from any state: the groups are the bytes' bits and at most 4 zero bits. -/
theorem transactAll_eightToFive (s : State) (bs : List Byte) :
    ∃ t rs last, transactAll (regroupWords 8#4 5#4 1#1 bs) s = some (t, rs ++ [last]) ∧ (∀ r ∈ rs ++ [last], r.status = 0#4) ∧
      (∀ g ∈ groupsOfAll (rs ++ [last]), g.toNat < 2 ^ 5) ∧
      (last.count.toNat = if 8 * bs.length % 5 ≠ 0 then 1 else 0) ∧
      ∃ pad < 5, (groupsOfAll (rs ++ [last])).length * 5 = 8 * bs.length + pad ∧
        bitsValue 5 ((groupsOfAll (rs ++ [last])).map BitVec.toNat) = bitsValue 8 (bs.map BitVec.toNat) * 2 ^ pad := by
  have hbytes : ∀ b ∈ bs.map BitVec.toNat, b < 2 ^ 8 := List.forall_mem_map.mpr fun b _ => b.isLt
  obtain ⟨t, rs, last, hall, hok, hgroups, hlast⟩ :=
    transactAll_regroupWords (iw := 8#4) (ow := 5#4) (padf := 1#1) (by decide) (List.forall_mem_map.mp hbytes)
      (doc0Finish_padded _ _ _ _) s
  have hpadded : (groupsOfAll (rs ++ [last])).map BitVec.toNat = doc0Padded 8 5 (bs.map BitVec.toNat) := hgroups
  obtain ⟨pad, hpad, hlength, hvalue⟩ := doc0Padded_bits 8 (outW := 5) (by decide) hbytes
  rw [← hpadded] at hlength hvalue
  refine ⟨t, rs, last, hall, hok, ?_, ?_, pad, hpad, by simpa using hlength, hvalue⟩
  · rw [← List.forall_mem_map (P := (· < 2 ^ 5)), hpadded]
    exact doc0Padded_group_lt 8 5 _
  · rw [hlast, paddedLeftover_length, doc0Convert_left_eq_mod _ (by decide)]
    simp [ite_not]

/-- Settles O57: the groups' bits are the bytes' bits filled up to a multiple of 5, and RG_FIN adds a group exactly if bits are left. -/
theorem eightToFiveCounts : Obligations.EightToFiveCounts := by
  unfold Obligations.EightToFiveCounts
  intro s bs
  obtain ⟨t, rs, last, hall, -, -, hlast, pad, hpad, hlength, -⟩ := transactAll_eightToFive s bs
  exact ⟨t, rs, last, hall, by omega, hlast⟩

/-- Settles O55: the padded groups are the bytes' bits and fewer than 5 zero bits (`doc0Padded_bits`), which the conversion back leaves
and RG_FIN accepts (`doc0Convert_unpad`, `doc0Finish_zero_bits`). -/
theorem roundTripOfBytes : Obligations.RoundTripOfBytes := by
  unfold Obligations.RoundTripOfBytes
  intro s bs
  obtain ⟨t, rs, last, hall, hok, hgroups, -, pad, hpad, hlength, hvalue⟩ := transactAll_eightToFive s bs
  have hnumber : (groupsOfAll (rs ++ [last])).length = (8 * bs.length + 4) / 5 := by omega
  have hback := doc0Convert_unpad (outW := 8) (by omega) (List.forall_mem_map.mpr hgroups)
    (List.forall_mem_map.mpr fun b _ => b.isLt) (by simpa using hlength) hvalue
  have hend : doc0EndOf (configured 5#4 8#4 0#1) (groupsOfAll (rs ++ [last])) = .done [] :=
    (congrArg (fun d : List Nat × Nat × Nat => doc0Finish 5 8 false d.2.1 d.2.2) hback).trans
      (doc0Finish_zero_bits hpad (by omega) _)
  obtain ⟨u, qs, last', hall', hok', hgroups', -⟩ :=
    transactAll_regroupWords (iw := 5#4) (ow := 8#4) (padf := 0#1) (by decide) hgroups hend t
  refine ⟨t, rs ++ [last], u, qs ++ [last'], hall, hok, hnumber, ?_, hall', hok', ?_⟩
  · rw [hvalue]
    congr 2
    omega
  · refine List.map_injective_iff.mpr BitVec.toNat_injective ?_
    rw [hgroups', List.append_nil]
    exact congrArg Prod.fst hback

end Sys2Proof.Machine

/-! ### Illegal words (spec 30_encoding R56, R60; 60_exceptions R132) -/

namespace Sys2Proof

/-- How many low bits of a row's words are operand bits (R56); the bits between them and `OP` are reserved. -/
def operandBits : Opcode → Nat
  | .ckInit | .ckRead | .rgClr | .rgFin | .rgRead => 0
  | .ckHrph | .ckHrpl | .ckFoldc | .rgPush => 8
  | .ckFold => 5
  | .ckCheck => 1
  | .rgCfg => 9

/-- Every mask of R58 keeps all but the operand bits. -/
theorem opcodeMask_eq (o : Opcode) : opcodeMask o = BitVec.allOnes 16 <<< operandBits o := by
  cases o <;> rfl

/-- R56: a word is of a row exactly when it has the row's `OP` and no reserved bit set. -/
theorem matchesRow_iff_fields {w : Word} {o : Opcode} :
    matchesRow w o = true ↔
      w.toNat / 2 ^ 12 = (opcodeMatch o).toNat / 2 ^ 12 ∧ w.toNat % 2 ^ 12 < 2 ^ operandBits o := by
  have hlt : w.toNat < 2 ^ 16 := w.isLt
  have hrest : w.toNat / 2 ^ operandBits o * 2 ^ operandBits o < 2 ^ 16 := (Nat.div_mul_le_self _ _).trans_lt hlt
  rw [matchesRow_iff, opcodeMask_eq, ← BitVec.shiftLeft_ushiftRight, BitVec.toNat_eq, BitVec.toNat_shiftLeft,
    BitVec.toNat_ushiftRight, Nat.shiftRight_eq_div_pow, Nat.shiftLeft_eq, Nat.mod_eq_of_lt hrest]
  cases o <;> simp only [operandBits, opcodeMatch, BitVec.toNat_ofNat] <;> omega

theorem forall_opcode_iff {p : Opcode → Prop} : (∀ o, p o) ↔ ∀ o ∈ opcodeRows, p o := by
  simp [mem_opcodeRows]

/-- Settles O4: the reserved words are those that have the fields of no row. -/
theorem illegalWordsAnswerIllegal : Obligations.IllegalWordsAnswerIllegal := by
  unfold Obligations.IllegalWordsAnswerIllegal
  intro w op arg reserved
  have hop : op < 16 := Nat.div_lt_of_lt_mul w.isLt
  have hreserved : reserved ↔ ∃ k, decode w = .illegal k := by
    simp only [decode_is_illegal_iff, ← Bool.not_eq_true, matchesRow_iff_fields]
    change reserved ↔ ∀ o, ¬ (op = (opcodeMatch o).toNat / 2 ^ 12 ∧ arg < 2 ^ operandBits o)
    rw [forall_opcode_iff]
    simp only [opcodeRows, List.forall_mem_cons, opcodeMatch, operandBits, BitVec.toNat_ofNat, reserved]
    clear_value op arg
    -- one `OP` at a time, both sides say the same of the operand bits
    interval_cases op <;> simp
    omega
  refine ⟨hreserved, fun h s => ?_⟩
  obtain ⟨k, hk⟩ := hreserved.mp h
  exact Machine.acceptWord_illegal hk s

end Sys2Proof

/-! ### Latched errors block, and errors write only the latch (spec 60_exceptions R131, R140, R141) -/

namespace Sys2Proof.Machine

/-! A latched error. -/

/-- The RG commands a latched error blocks (R140) check the latch before anything else. -/
theorem exec_blockable_rg {i : Instr} (hunit : i.unit = .rg) (hblock : Blockable i = true) :
    ∃ f, ∀ s, exec i s = onRg (blockedRg f) s := by
  cases i with
  | rgPush | rgFin => exact ⟨_, fun _ => rfl⟩
  | rgCfg | rgClr | rgRead => simp at hblock
  | ckInit | ckHrph | ckHrpl | ckFold | ckFoldc | ckCheck | ckRead => simp [Instr.unit] at hunit

/-- A blocked command of a unit with a latched error answers the latch and writes nothing, whichever unit it is. -/
theorem answers_latch {i : Instr} {s : State} (hinv : s.Inv) (hblock : Blockable i = true) (hlatched : unitErr i s ≠ 0#4) :
    Answers i s s.ck s.rg ⟨unitErr i s, 0#4, 0#64⟩ := by
  obtain ⟨hck, hrg, -⟩ := hinv
  cases hunit : i.unit with
  | ck =>
    simp only [unitErr, hunit] at hlatched ⊢
    exact answers_of_latched hunit hblock hlatched hck
  | rg =>
    simp only [unitErr, hunit] at hlatched ⊢
    obtain ⟨f, hf⟩ := exec_blockable_rg hunit hblock
    exact answers_of_latchedRg (hf s) hlatched hrg

/-- The response put in flight is the one issued, whatever state it is issued in. -/
theorem responseOf_respond (r : Response) (s : State) :
    responseOf (respond r s) = if reservedStatusCode r.status then none else some r := by
  unfold respond
  split <;> rfl

theorem responseOf_onCk (f : CkUnit → CkUnit × Response) (s : State) (rg : RgUnit) :
    responseOf (onCk f { s with rg := rg }) = responseOf (onCk f s) := by
  simp only [onCk, responseOf_respond]

theorem responseOf_onRg (f : RgUnit → RgUnit × Response) (s : State) (ck : CkUnit) :
    responseOf (onRg f { s with ck := ck }) = responseOf (onRg f s) := by
  simp only [onRg, responseOf_respond]

/-- Settles O43: `answers_latch`, and a response is a function of its command's own unit. -/
theorem latchBlocksOwnUnitOnly : Obligations.LatchBlocksOwnUnitOnly := by
  unfold Obligations.LatchBlocksOwnUnitOnly
  intro i s hinv
  refine ⟨answers_latch hinv, ?_⟩
  obtain ⟨hunit, f, hf⟩ | ⟨hunit, f, hf⟩ := exec_on_unit i
  · simp only [hf, hunit]
    exact ⟨fun _ rg => responseOf_onCk f s rg, nofun⟩
  · simp only [hf, hunit]
    exact ⟨nofun, fun _ ck => responseOf_onRg f s ck⟩

/-! The status of a command, and what its error writes. -/

/-- What a command with the nonzero status `r.status` leaves of the units and answers (R131, R69). -/
structure ErrorFrame (i : Instr) (s : State) (ck : CkUnit) (rg : RgUnit) (r : Response) : Prop where
  ckWritten : ck = s.ck ∨ (i.unit = .ck ∧ s.ck.err = 0#4 ∧ ck = { s.ck with err := r.status })
  rgWritten : rg = s.rg ∨ (i.unit = .rg ∧ s.rg.err = 0#4 ∧ rg = { s.rg with err := r.status })
  response : r.status ≠ 5#4 → r = ⟨r.status, 0#4, 0#64⟩
  checksum : r.status = 5#4 → i.opcode = .ckCheck ∧ ck = s.ck ∧ r = ⟨5#4, 0#4, BitVec.ofNat 64 s.ck.acc.toNat⟩

/-- `i` answers with the status `code`, and unless that is OK it does so as an error (`ErrorFrame`). -/
def AnswersStatus (i : Instr) (s : State) (code : Code) : Prop :=
  ∃ ck rg r, Answers i s ck rg r ∧ r.status = code ∧ (code ≠ 0#4 → ErrorFrame i s ck rg r)

section AnswersStatus

variable {i : Instr} {s : State} {code : Code}

theorem AnswersStatus.ok {ck : CkUnit} {rg : RgUnit} {r : Response} (h : Answers i s ck rg r) (hok : r.status = 0#4) :
    AnswersStatus i s 0#4 :=
  ⟨ck, rg, r, h, hok, fun hne => absurd rfl hne⟩

/-- An error that is reported and not latched: the latch itself, or OPERAND beside a latch already taken. -/
theorem AnswersStatus.unlatched (h : Answers i s s.ck s.rg ⟨code, 0#4, 0#64⟩) (hcode : code ≠ 5#4) :
    AnswersStatus i s code :=
  ⟨_, _, _, h, rfl, fun _ => ⟨.inl rfl, .inl rfl, fun _ => rfl, fun h5 => absurd h5 hcode⟩⟩

theorem AnswersStatus.latchedCk (h : Answers i s ⟨s.ck.acc, code⟩ s.rg ⟨code, 0#4, 0#64⟩) (hunit : i.unit = .ck)
    (hfree : s.ck.err = 0#4) (hcode : code ≠ 5#4) : AnswersStatus i s code :=
  ⟨_, _, _, h, rfl, fun _ => ⟨.inr ⟨hunit, hfree, rfl⟩, .inl rfl, fun _ => rfl, fun h5 => absurd h5 hcode⟩⟩

theorem AnswersStatus.latchedRg (h : Answers i s s.ck { s.rg with err := code } ⟨code, 0#4, 0#64⟩) (hunit : i.unit = .rg)
    (hfree : s.rg.err = 0#4) (hcode : code ≠ 5#4) : AnswersStatus i s code :=
  ⟨_, _, _, h, rfl, fun _ => ⟨.inl rfl, .inr ⟨hunit, hfree, rfl⟩, fun _ => rfl, fun h5 => absurd h5 hcode⟩⟩

theorem AnswersStatus.checksum (h : Answers i s s.ck s.rg ⟨5#4, 0#4, BitVec.ofNat 64 s.ck.acc.toNat⟩)
    (hop : i.opcode = .ckCheck) : AnswersStatus i s 5#4 :=
  ⟨_, _, _, h, rfl, fun _ => ⟨.inl rfl, .inl rfl, fun hne => absurd rfl hne, fun _ => ⟨hop, rfl, rfl⟩⟩⟩

end AnswersStatus

/-- Steps 3 to 5 of R141: the status of a command that no latched error blocks. -/
def unblockedStatus (s : State) : Instr → Code
  | .rgCfg iw ow _ => if (1 ≤ iw.toNat ∧ iw.toNat ≤ 8) ∧ (1 ≤ ow.toNat ∧ ow.toNat ≤ 8) then 0#4 else 2#4
  | .rgPush sym => if 2 ^ s.rg.inW.toNat ≤ sym.toNat then 2#4 else 0#4
  | .ckHrph ch | .ckHrpl ch => if 33 ≤ ch.toNat ∧ ch.toNat ≤ 126 then 0#4 else 3#4
  | .ckFoldc ch => if alphaDec ch = none then 4#4 else 0#4
  | .rgFin =>
    if s.rg.pad = 0#1 ∧ s.rg.inW.toNat ≤ s.rg.cnt.toNat then 6#4
    else if s.rg.pad = 0#1 ∧ s.rg.acc ≠ 0#15 then 7#4 else 0#4
  | .ckCheck var => if s.ck.acc = target var then 0#4 else 5#4
  | .ckInit | .ckFold _ | .ckRead | .rgClr | .rgRead => 0#4

/-- Steps 2 to 5 of R141: the status of a command. -/
def commandStatus (s : State) (i : Instr) : Code :=
  if Blockable i = true ∧ unitErr i s ≠ 0#4 then unitErr i s else unblockedStatus s i

section Unblocked

variable {s : State}

/-- Both passes over a character (R84, R85). -/
theorem answersStatus_foldPrefixChar {i : Instr} {part : Byte → Sym} {ch : Byte}
    (hexec : exec i s = onCk (blockedCk (foldPrefixChar part ch)) s) (hunit : i.unit = .ck) (hfree : s.ck.err = 0#4) :
    AnswersStatus i s (if 33 ≤ ch.toNat ∧ ch.toNat ≤ 126 then 0#4 else 3#4) := by
  split
  case isTrue hch => exact .ok (answers_foldPrefixChar hexec hfree hch) rfl
  case isFalse hch => exact .latchedCk (answers_foldPrefixChar_illegal hexec hfree (by omega)) hunit hfree (by decide)

theorem answersStatus_foldc (ch : Byte) (hfree : s.ck.err = 0#4) :
    AnswersStatus (.ckFoldc ch) s (if alphaDec ch = none then 4#4 else 0#4) := by
  obtain ⟨hfold, hraise, -⟩ := foldcDecodesAndFolds s ch
  cases hv : alphaDec ch with
  | none => exact .latchedCk (hraise hfree hv) rfl hfree (by decide)
  | some v => exact .ok (hfold v hfree hv) rfl

theorem answersStatus_check (var : Variant) (hfree : s.ck.err = 0#4) :
    AnswersStatus (.ckCheck var) s (if s.ck.acc = target var then 0#4 else 5#4) := by
  have h := answers_of_free (i := .ckCheck var) rfl hfree (checkTarget_eq var s.ck) (by split <;> simp)
  by_cases hmatch : s.ck.acc = target var
  · rw [if_pos hmatch] at h ⊢
    exact .ok h rfl
  · rw [if_neg hmatch] at h ⊢
    exact .checksum h rfl

/-- An illegal width is reported also where the latch is taken, which then keeps its code (R143). -/
theorem answersStatus_cfg (iw ow : BitVec 4) (padf : BitVec 1) :
    AnswersStatus (.rgCfg iw ow padf) s
      (if (1 ≤ iw.toNat ∧ iw.toNat ≤ 8) ∧ (1 ≤ ow.toNat ∧ ow.toNat ≤ 8) then 0#4 else 2#4) := by
  obtain ⟨hconfigure, hraise⟩ := cfgConfiguresOrRejects s iw ow padf
  split
  case isTrue hlegal => exact .ok (hconfigure hlegal) rfl
  case isFalse hlegal =>
    have h := hraise hlegal
    by_cases hfree : s.rg.err = 0#4
    · rw [if_pos hfree] at h
      exact .latchedRg h rfl hfree (by decide)
    · rw [if_neg hfree] at h
      exact .unlatched h (by decide)

theorem answersStatus_push (sym : Byte) (hlegal : s.rg.Legal) (hfree : s.rg.err = 0#4) :
    AnswersStatus (.rgPush sym) s (if 2 ^ s.rg.inW.toNat ≤ sym.toNat then 2#4 else 0#4) := by
  obtain ⟨hconsume, hraise, -⟩ := pushConsumesOrRejects s sym
  split
  case isTrue hwide => exact .latchedRg (hraise hfree hwide) rfl hfree (by decide)
  case isFalse hfits => exact .ok (hconsume hfree hlegal (Nat.lt_of_not_le hfits)) rfl

theorem answersStatus_fin (hlegal : s.rg.Legal) (hfree : s.rg.err = 0#4) :
    AnswersStatus .rgFin s
      (if s.rg.pad = 0#1 ∧ s.rg.inW.toNat ≤ s.rg.cnt.toNat then 6#4
        else if s.rg.pad = 0#1 ∧ s.rg.acc ≠ 0#15 then 7#4 else 0#4) := by
  obtain ⟨hpadded, hexcess, hnonzero, hzero, -⟩ := finAppliesPaddingRule s
  obtain hpad | hpad := BitVec.eq_zero_or_eq_one s.rg.pad
  · by_cases hle : s.rg.inW.toNat ≤ s.rg.cnt.toNat
    · rw [if_pos ⟨hpad, hle⟩]
      exact .latchedRg (hexcess hfree hpad hle) rfl hfree (by decide)
    · rw [if_neg fun h => hle h.2]
      have hlt := Nat.lt_of_not_le hle
      by_cases hacc : s.rg.acc = 0#15
      · rw [if_neg fun h => h.2 hacc]
        exact .ok (hzero hfree hpad hlt hacc) rfl
      · rw [if_pos ⟨hpad, hacc⟩]
        exact .latchedRg (hnonzero hfree hpad hlt hacc) rfl hfree (by decide)
  · have hne : s.rg.pad ≠ 0#1 := by simp [hpad]
    rw [if_neg fun h => hne h.1, if_neg fun h => hne h.1]
    exact .ok (hpadded hfree hpad hlegal) (by split <;> rfl)

theorem answersStatus_unblocked {i : Instr} (hlegal : s.rg.Legal) (h : Blockable i = true → unitErr i s = 0#4) :
    AnswersStatus i s (unblockedStatus s i) := by
  cases i with
  | ckInit => exact .ok (initStartsChecksum s) rfl
  | ckHrph ch => exact answersStatus_foldPrefixChar (part := charHigh) rfl rfl (h rfl)
  | ckHrpl ch => exact answersStatus_foldPrefixChar (part := charLow) rfl rfl (h rfl)
  | ckFold v => exact .ok ((foldFoldsValue s v).1 (h rfl)) rfl
  | ckFoldc ch => exact answersStatus_foldc ch (h rfl)
  | ckCheck var => exact answersStatus_check var (h rfl)
  | ckRead => exact .ok (ckReadShowsRegisters s) rfl
  | rgCfg iw ow padf => exact answersStatus_cfg iw ow padf
  | rgClr => exact .ok (clrKeepsConfiguration s) rfl
  | rgPush sym => exact answersStatus_push sym hlegal (h rfl)
  | rgFin => exact answersStatus_fin hlegal (h rfl)
  | rgRead => exact .ok (rgReadShowsRegisters s) rfl

end Unblocked

/-- No legal latch holds CHECKSUM, which is never latched (R136). -/
theorem unitErr_ne_checksum {s : State} (hinv : s.Inv) (i : Instr) : unitErr i s ≠ 5#4 := by
  obtain ⟨hck, ⟨-, -, -, -, hrg⟩, -⟩ := hinv
  cases hunit : i.unit with
  | ck => obtain h | h | h := hck <;> simp [unitErr, hunit, h]
  | rg => obtain h | h | h | h := hrg <;> simp [unitErr, hunit, h]

/-- What every command does in a legal state: it answers with its status, and an error has its frame. -/
theorem answersStatus_commandStatus {s : State} (hinv : s.Inv) (i : Instr) : AnswersStatus i s (commandStatus s i) := by
  unfold commandStatus
  split
  case isTrue h =>
    obtain ⟨hblock, hlatched⟩ := h
    exact .unlatched (answers_latch hinv hblock hlatched) (unitErr_ne_checksum hinv i)
  case isFalse h =>
    obtain ⟨-, hlegal, -⟩ := hinv
    exact answersStatus_unblocked hlegal fun hblock => by simpa [hblock] using h

/-- Settles O49: the frame of the error that `answersStatus_commandStatus` gives. -/
theorem errorWritesOnlyItsLatch : Obligations.ErrorWritesOnlyItsLatch := by
  unfold Obligations.ErrorWritesOnlyItsLatch
  intro i s t f hinv hexec hf herror
  obtain ⟨ck, rg, r, hanswers, hstatus, hframe⟩ := answersStatus_commandStatus hinv i
  obtain rfl := Host.Outcome.next.inj (hexec.symm.trans hanswers)
  obtain rfl : InFlight.mk r s.edge = f := Option.some.inj hf
  obtain ⟨hck, hrg, hresponse, hchecksum⟩ := hframe (hstatus ▸ herror)
  exact ⟨hck, hrg, hresponse, hchecksum⟩

/-- Settles O50: an illegal word is answered before anything else (`acceptWord_illegal`), and a command with its status. -/
theorem statusPriority : Obligations.StatusPriority := by
  unfold Obligations.StatusPriority
  intro s w hinv
  cases hw : decode w with
  | illegal k => exact ⟨_, _, acceptWord_illegal hw s, rfl, rfl⟩
  | command i =>
    obtain ⟨ck, rg, r, hanswers, hstatus, -⟩ := answersStatus_commandStatus hinv i
    refine ⟨_, _, (acceptWord_command hw s).trans hanswers, rfl, hstatus.trans ?_⟩
    cases i with
    | ckCheck var => cases var <;> rfl
    | _ => rfl

end Sys2Proof.Machine

/-! ### Reset (spec 70_reset R150, R151, R154) -/

namespace Sys2Proof.Machine

/-- Reset is asked first: neither a broken offer nor a command in flight keeps an edge with `rst = 1` from being a reset edge. -/
theorem step_reset {s : State} (h : (pins s).rst = true) : step s = .next (resetEdge s) :=
  if_pos h

/-- Settles O9: the step is `resetEdge` (`step_reset`), whose fields are the reset values, and both output pins are gated by `rst`. -/
theorem resetEdgeResetsEverything : Obligations.ResetEdgeResetsEverything := by
  unfold Obligations.ResetEdgeResetsEverything
  intro s hrst
  have hready : (portOut s).cmdReady = false := by simp [portOut_cmdReady, hrst]
  have hvalid : (portOut s).rspValid = false := by simp [portOut_rspValid, hrst]
  exact ⟨hready, hvalid, resetEdge s, step_reset hrst, rfl, rfl, rfl, rfl⟩

/-- Settles O18: `CK_INIT` writes the CK unit (`initStartsChecksum`) and `RG_CFG` with legal widths the RG unit
(`cfgConfiguresOrRejects`), whatever the two units held before. -/
theorem resetEqualsInitThenConfigure : Obligations.ResetEqualsInitThenConfigure := by
  unfold Obligations.ResetEqualsInitThenConfigure
  intro s
  have hinit := transact_encode (initStartsChecksum s)
  have hcfg := fun t => transact_encode ((cfgConfiguresOrRejects t 5#4 8#4 0#1).1 (by decide))
  have hall : transactAll ([Instr.ckInit, .rgCfg 5#4 8#4 0#1].map encode) s = some (_, _) :=
    (transactAll_cons hinit).trans (congrArg _ (transactAll_cons (hcfg _)))
  exact ⟨_, _, hall, rfl, rfl, rfl⟩

end Sys2Proof.Machine

/-! ### The encoder and the decoder are inverse (spec 30_encoding R55 to R59, R64) -/

namespace Sys2Proof

/-- Settles O1: a command's word is of the command's own row, and its fields hold the operands (`decode_encode`). -/
theorem decodeEncodeRoundTrip : Obligations.DecodeEncodeRoundTrip := by
  unfold Obligations.DecodeEncodeRoundTrip
  exact decode_encode

/-- A field of `n` bits at the bottom of a word, put back where it was read. -/
theorem setWidth_extractLsb'_low (n : Nat) (w : Word) :
    (w.extractLsb' 0 n).setWidth 16 = w &&& ~~~ (BitVec.allOnes 16 <<< n) := by
  ext i hi
  by_cases hin : i < n <;> simp [hin, BitVec.getLsbD_eq_getElem hi, -BitVec.reduceAllOnes]

theorem variantBit_fieldVar (w : Word) : variantBit (fieldVar w) = w.extractLsb' 0 1 := by
  ext i hi
  obtain rfl : i = 0 := by omega
  cases h : w.getLsbD 0 <;> simp_all [fieldVar, variantBit]

/-- The three fields of RG_CFG lie one above the other (R56). -/
theorem or_fields_rgCfg (w : Word) :
    (fieldPadf w).setWidth 16 <<< 8 ||| ((fieldOw w).setWidth 16 <<< 4 ||| (fieldIw w).setWidth 16) =
      w &&& ~~~ (BitVec.allOnes 16 <<< 9) := by
  ext i hi
  interval_cases i <;> simp [fieldPadf, fieldOw, fieldIw]

/-- The word of a row's command, with its operands read from `w`: the row's match value with the operand bits of `w`. -/
theorem encode_instrOf (o : Opcode) (w : Word) : encode (instrOf o w) = opcodeMatch o ||| w &&& ~~~ opcodeMask o := by
  rw [opcodeMask_eq]
  cases o with
  | ckInit | ckRead | rgClr | rgFin | rgRead => simp [encode, instrOf, opcodeMatch, operandBits]
  | ckHrph | ckHrpl | ckFoldc | rgPush => exact congrArg (_ ||| ·) (setWidth_extractLsb'_low 8 w)
  | ckFold => exact congrArg (_ ||| ·) (setWidth_extractLsb'_low 5 w)
  | ckCheck =>
    simp only [instrOf, encode, variantBit_fieldVar]
    exact congrArg (_ ||| ·) (setWidth_extractLsb'_low 1 w)
  | rgCfg =>
    simp only [instrOf, encode, BitVec.or_assoc]
    exact congrArg (_ ||| ·) (or_fields_rgCfg w)

/-- Settles O2: a decoded word is of its command's row, so its bits are the row's under the mask and the operands' elsewhere. -/
theorem encodeOfDecoded : Obligations.EncodeOfDecoded := by
  unfold Obligations.EncodeOfDecoded
  intro w i hi
  obtain ⟨o, ho, hd⟩ | ⟨-, hd⟩ := decode_cases w
  · obtain rfl : instrOf o w = i := by simpa [hd] using hi
    calc encode (instrOf o w)
        = w &&& opcodeMask o ||| w &&& ~~~ opcodeMask o := by rw [encode_instrOf, matchesRow_iff.mp ho]
      _ = w := by rw [← BitVec.and_or_distrib_left, BitVec.or_not_self, BitVec.and_allOnes]
  · simp [hd] at hi

/-- Settles O5: each word is looked up in the opcode map. -/
theorem specWordsDecode : Obligations.SpecWordsDecode := by
  unfold Obligations.SpecWordsDecode
  exact ⟨by decide, by decide, by decide, by decide, by decide, by decide, ⟨.reservedBits, by decide⟩,
    ⟨.reservedOpcode, by decide⟩⟩

/-! The assembler's lines of one command. -/

theorem ofNat_shiftLeft (v k : Nat) : BitVec.ofNat 16 (v <<< k) = BitVec.ofNat 16 v <<< k := by
  apply BitVec.eq_of_toNat_eq
  simp [Nat.shiftLeft_eq]

/-- An operand in range is the low bits of its word. -/
theorem or_operand {n v : Nat} (hn : n ≤ 16) (hv : v < 2 ^ n) (word : Nat) :
    BitVec.ofNat 16 word ||| (BitVec.ofNat n v).setWidth 16 = BitVec.ofNat 16 (word ||| v) := by
  rw [BitVec.setWidth_ofNat_of_le_of_lt hn hv, BitVec.ofNat_or]

/-- A line of one command: its word when its operands are in range, no word otherwise. -/
theorem assemble_line {l : AsmLine} {i : Instr} {inRange : Prop} {word : Nat} (hexpand : asmExpand l = [i])
    (hrange : asmWellFormed l = true ↔ inRange) (hword : inRange → encode i = BitVec.ofNat 16 word) :
    (inRange → assemble l = some [BitVec.ofNat 16 word]) ∧ (¬ inRange → assemble l = none) := by
  refine ⟨fun h => ?_, fun h => if_neg (h ∘ hrange.mp)⟩
  rw [assemble_of_wellFormed (hrange.mpr h), hexpand, List.map_singleton, hword h]

theorem encode_ckCheck_operand {var : Nat} (h : var ≤ 1) :
    encode (.ckCheck (if var = 0 then .bech32 else .bech32m)) = BitVec.ofNat 16 (0x6000 ||| var) := by
  interval_cases var <;> rfl

theorem encode_rgCfg_operands {iw ow pad : Nat} (hiw : iw ≤ 15) (how : ow ≤ 15) (hpad : pad ≤ 1) :
    encode (.rgCfg (BitVec.ofNat 4 iw) (BitVec.ofNat 4 ow) (BitVec.ofNat 1 pad)) =
      BitVec.ofNat 16 (0x8000 ||| pad <<< 8 ||| ow <<< 4 ||| iw) := by
  rw [encode, BitVec.setWidth_ofNat_of_le_of_lt (by decide) (by omega : pad < 2 ^ 1),
    BitVec.setWidth_ofNat_of_le_of_lt (by decide) (by omega : ow < 2 ^ 4),
    BitVec.setWidth_ofNat_of_le_of_lt (by decide) (by omega : iw < 2 ^ 4)]
  simp only [BitVec.ofNat_or, ofNat_shiftLeft]

/-- Settles O6: line by line, the range of its operands (`asmWellFormed`) and its one word. -/
theorem assemblerWords : Obligations.AssemblerWords := by
  unfold Obligations.AssemblerWords
  intro l line
  have operand {n v k : Nat} (hk : k + 1 = 2 ^ n) : decide (v < 2 ^ n) = true ↔ v ≤ k := by simp; omega
  cases l with
  | ckInit | ckRead | rgClr | rgFin | rgRead => exact assemble_line rfl (by simp [asmWellFormed]) fun _ => rfl
  | ckHrph ch | ckHrpl ch | ckFoldc ch | rgPush ch =>
    exact assemble_line rfl (operand (n := 8) rfl) fun h => or_operand (by decide) (by omega) _
  | ckFold v => exact assemble_line rfl (operand (n := 5) rfl) fun h => or_operand (by decide) (by omega) _
  | ckCheck var => exact assemble_line rfl (operand (n := 1) rfl) encode_ckCheck_operand
  | rgCfg iw ow pad =>
    refine assemble_line rfl ?_ fun ⟨hiw, how, hpad⟩ => encode_rgCfg_operands hiw how hpad
    simp [asmWellFormed]; omega
  | ckSep | ckHrp _ | ckData _ | rgDec58 | rgEnc85 => trivial

end Sys2Proof

/-! ### What a command can do (spec 10_state R20, R25, R30, R35; 60_exceptions R131, R140) -/

namespace Sys2Proof.Machine

/-- All that the CK command `i` can leave of the unit `u`, with what it answers. -/
inductive CkOutcome (i : Instr) (u : CkUnit) : CkUnit × Response → Prop
  | started (hi : i = .ckInit) : CkOutcome i u (⟨ckSeed, 0#4⟩, okResponse (zext64 ckSeed))
  | folded (acc : Acc) (data : BitVec 64) (hi : i.opcode ∈ [.ckHrph, .ckHrpl, .ckFold, .ckFoldc]) (hfree : u.err = 0#4) :
      CkOutcome i u (⟨acc, u.err⟩, okResponse data)
  | raised (st : Status) (hst : st = .badPrefix ∨ st = .alphabet) (hi : i.opcode ∈ [.ckHrph, .ckHrpl, .ckFoldc])
      (hfree : u.err = 0#4) : CkOutcome i u (raiseCk st u)
  | reported (code : Code) (data : BitVec 64) (hcode : code = 0#4 ∨ code = 5#4) (hi : i.opcode ∈ [.ckCheck, .ckRead])
      (hfree : Blockable i = true → u.err = 0#4) : CkOutcome i u (u, ⟨code, 0#4, data⟩)
  | blocked (hblock : Blockable i = true) (hlatched : u.err ≠ 0#4) : CkOutcome i u (u, codeResponse u.err)

/-- All that the RG command `i` can leave of the unit `u`, with what it answers. -/
inductive RgOutcome (i : Instr) (u : RgUnit) : RgUnit × Response → Prop
  | configured (iw ow : BitVec 4) (padf : BitVec 1) (hi : i.opcode = .rgCfg) :
      RgOutcome i u (⟨0#15, 0#4, iw, ow, padf, 0#4⟩, okResponse 0#64)
  | cleared (hi : i = .rgClr) : RgOutcome i u ({ u with acc := 0#15, cnt := 0#4, err := 0#4 }, okResponse 0#64)
  | converted (acc : BitVec 15) (cnt : BitVec 4) (gs : List Byte) (hgs : u.Legal → gs.length ≤ 8)
      (hi : i.opcode ∈ [.rgPush, .rgFin]) (hfree : u.err = 0#4) :
      RgOutcome i u ({ u with acc := acc, cnt := cnt }, groupsResponse gs)
  | raised (st : Status) (hst : st = .operand ∨ st = .padExcess ∨ st = .padNonzero)
      (hi : i.opcode ∈ [.rgCfg, .rgPush, .rgFin]) (hfree : Blockable i = true → u.err = 0#4) : RgOutcome i u (raiseRg st u)
  | shown (data : BitVec 64) (hi : i = .rgRead) : RgOutcome i u (u, okResponse data)
  | blocked (hblock : Blockable i = true) (hlatched : u.err ≠ 0#4) : RgOutcome i u (u, codeResponse u.err)

theorem CkOutcome.of_blockedCk {i : Instr} {u : CkUnit} {f : CkUnit → CkUnit × Response} (hblock : Blockable i = true)
    (h : u.err = 0#4 → CkOutcome i u (f u)) : CkOutcome i u (blockedCk f u) := by
  by_cases hfree : u.err = 0#4
  · rw [blockedCk_free hfree]
    exact h hfree
  · rw [blockedCk_latched hfree]
    exact .blocked hblock hfree

theorem RgOutcome.of_blockedRg {i : Instr} {u : RgUnit} {f : RgUnit → RgUnit × Response} (hblock : Blockable i = true)
    (h : u.err = 0#4 → RgOutcome i u (f u)) : RgOutcome i u (blockedRg f u) := by
  by_cases hfree : u.err = 0#4
  · rw [blockedRg_free hfree]
    exact h hfree
  · rw [blockedRg_latched hfree]
    exact .blocked hblock hfree

theorem ckOutcome_foldPrefixChar {i : Instr} {u : CkUnit} (part : Byte → Sym) (ch : Byte)
    (hi : i.opcode ∈ [.ckHrph, .ckHrpl]) (hfree : u.err = 0#4) : CkOutcome i u (foldPrefixChar part ch u) := by
  cases hch : prefixChar ch with
  | true =>
    rw [foldPrefixChar_legal hch]
    exact .folded _ _ (List.mem_append_left [Opcode.ckFold, .ckFoldc] hi) hfree
  | false =>
    rw [foldPrefixChar_illegal hch]
    exact .raised _ (.inl rfl) (List.mem_append_left [Opcode.ckFoldc] hi) hfree

theorem ckOutcome_foldDataChar {u : CkUnit} (ch : Byte) (hfree : u.err = 0#4) :
    CkOutcome (.ckFoldc ch) u (foldDataChar ch u) := by
  unfold foldDataChar
  split
  · exact .raised _ (.inr rfl) (by simp [Instr.opcode]) hfree
  · exact .folded _ _ (by simp [Instr.opcode]) hfree

theorem ckOutcome_checkTarget {u : CkUnit} (var : Variant) (hfree : u.err = 0#4) :
    CkOutcome (.ckCheck var) u (checkTarget var u) := by
  rw [checkTarget_eq]
  exact .reported _ _ (by split <;> simp) (by simp [Instr.opcode]) fun _ => hfree

theorem rgOutcome_configure (iw ow : BitVec 4) (padf : BitVec 1) (u : RgUnit) :
    RgOutcome (.rgCfg iw ow padf) u (configure iw ow padf u) := by
  by_cases h : (1 ≤ iw.toNat ∧ iw.toNat ≤ 8) ∧ (1 ≤ ow.toNat ∧ ow.toNat ≤ 8)
  · rw [configure_legal h]
    exact .configured iw ow padf rfl
  · rw [configure_illegal h]
    exact .raised _ (.inl rfl) (by simp [Instr.opcode]) (by simp)

theorem rgOutcome_pushSymbol {u : RgUnit} (sym : Byte) (hfree : u.err = 0#4) :
    RgOutcome (.rgPush sym) u (pushSymbol sym u) := by
  by_cases hsym : sym.toNat < 2 ^ u.inW.toNat
  · rw [pushSymbol_fits hsym]
    refine .converted _ _ _ (fun hlegal => ?_) (by simp [Instr.opcode]) hfree
    obtain ⟨⟨-, hinW⟩, -, hcnt, -⟩ := hlegal
    rw [consume_eq hsym, List.length_map]
    exact doc0Symbol_length_le _ _ hinW hcnt
  · rw [pushSymbol_wide (Nat.le_of_not_lt hsym)]
    exact .raised _ (.inl rfl) (by simp [Instr.opcode]) fun _ => hfree

theorem rgOutcome_finishInput {u : RgUnit} (hfree : u.err = 0#4) : RgOutcome .rgFin u (finishInput u) := by
  by_cases hpad : u.pad = 1#1
  · rw [finishInput_padded hpad]
    exact .converted _ _ _ (fun _ => by split <;> simp) (by simp [Instr.opcode]) hfree
  · by_cases hle : u.inW.toNat ≤ u.cnt.toNat
    · rw [finishInput_excess hpad hle]
      exact .raised _ (.inr (.inl rfl)) (by simp [Instr.opcode]) fun _ => hfree
    · by_cases hacc : u.acc = 0#15
      · rw [finishInput_zero hpad (Nat.lt_of_not_le hle) hacc]
        exact .converted 0#15 0#4 [] (fun _ => Nat.zero_le 8) (by simp [Instr.opcode]) hfree
      · rw [finishInput_nonzero hpad (Nat.lt_of_not_le hle) hacc]
        exact .raised _ (.inr (.inr rfl)) (by simp [Instr.opcode]) fun _ => hfree

/-- Every CK command runs a function whose outcomes are the listed ones. -/
theorem exec_ckOutcome {i : Instr} (hunit : i.unit = .ck) :
    ∃ f, (∀ s, exec i s = onCk f s) ∧ ∀ u, CkOutcome i u (f u) := by
  cases i with
  | ckInit => exact ⟨startChecksum, fun _ => rfl, fun _ => .started rfl⟩
  | ckHrph ch =>
    exact ⟨_, fun _ => rfl, fun _ => .of_blockedCk rfl (ckOutcome_foldPrefixChar charHigh ch (by simp [Instr.opcode]))⟩
  | ckHrpl ch =>
    exact ⟨_, fun _ => rfl, fun _ => .of_blockedCk rfl (ckOutcome_foldPrefixChar charLow ch (by simp [Instr.opcode]))⟩
  | ckFold v =>
    exact ⟨_, fun _ => rfl, fun _ => .of_blockedCk (f := foldAndShow v) rfl fun h => .folded _ _ (by simp [Instr.opcode]) h⟩
  | ckFoldc ch => exact ⟨_, fun _ => rfl, fun _ => .of_blockedCk rfl (ckOutcome_foldDataChar ch)⟩
  | ckCheck var => exact ⟨_, fun _ => rfl, fun _ => .of_blockedCk rfl (ckOutcome_checkTarget var)⟩
  | ckRead => exact ⟨showCk, fun _ => rfl, fun _ => .reported _ _ (.inl rfl) (by simp [Instr.opcode]) (by simp)⟩
  | rgCfg | rgClr | rgPush | rgFin | rgRead => simp [Instr.unit] at hunit

/-- Every RG command runs a function whose outcomes are the listed ones. -/
theorem exec_rgOutcome {i : Instr} (hunit : i.unit = .rg) :
    ∃ f, (∀ s, exec i s = onRg f s) ∧ ∀ u, RgOutcome i u (f u) := by
  cases i with
  | rgCfg iw ow padf => exact ⟨_, fun _ => rfl, rgOutcome_configure iw ow padf⟩
  | rgClr => exact ⟨clearRg, fun _ => rfl, fun _ => .cleared rfl⟩
  | rgPush sym => exact ⟨_, fun _ => rfl, fun _ => .of_blockedRg rfl (rgOutcome_pushSymbol sym)⟩
  | rgFin => exact ⟨_, fun _ => rfl, fun _ => .of_blockedRg rfl rgOutcome_finishInput⟩
  | rgRead => exact ⟨showRg, fun _ => rfl, fun _ => .shown _ rfl⟩
  | ckInit | ckHrph | ckHrpl | ckFold | ckFoldc | ckCheck | ckRead => simp [Instr.unit] at hunit

/-- A command that answers a next state does so by an outcome of its unit, and changes only that unit and the response in flight. -/
theorem exec_next_outcome {i : Instr} {s t : State} (h : exec i s = .next t) :
    (i.unit = .ck ∧ ∃ p, CkOutcome i s.ck p ∧ t = { s with ck := p.1, inFlight := some ⟨p.2, s.edge⟩ }) ∨
      (i.unit = .rg ∧ ∃ p, RgOutcome i s.rg p ∧ t = { s with rg := p.1, inFlight := some ⟨p.2, s.edge⟩ }) := by
  cases hunit : i.unit with
  | ck =>
    obtain ⟨f, hf, houtcome⟩ := exec_ckOutcome hunit
    rw [hf, onCk_eq_next] at h
    exact .inl ⟨rfl, f s.ck, houtcome s.ck, h.2⟩
  | rg =>
    obtain ⟨f, hf, houtcome⟩ := exec_rgOutcome hunit
    rw [hf, onRg_eq_next] at h
    exact .inr ⟨rfl, f s.rg, houtcome s.rg, h.2⟩

/-! The frame of every command. -/

section Outcome

variable {i : Instr}

theorem CkOutcome.acc_eq {u : CkUnit} {p : CkUnit × Response} (h : CkOutcome i u p)
    (hi : i.opcode ∉ [.ckInit, .ckHrph, .ckHrpl, .ckFold, .ckFoldc]) : p.1.acc = u.acc := by
  cases h with
  | started h => simp [h, Instr.opcode] at hi
  | folded _ _ h => exact absurd (List.mem_cons_of_mem _ h) hi
  | raised | reported | blocked => rfl

theorem CkOutcome.err_eq {u : CkUnit} {p : CkUnit × Response} (h : CkOutcome i u p)
    (hi : i.opcode ∉ [.ckInit, .ckHrph, .ckHrpl, .ckFoldc]) : p.1.err = u.err := by
  cases h with
  | started h => simp [h, Instr.opcode] at hi
  | raised _ _ h => exact absurd (List.mem_cons_of_mem _ h) hi
  | folded | reported | blocked => rfl

theorem RgOutcome.buffer_eq {u : RgUnit} {p : RgUnit × Response} (h : RgOutcome i u p)
    (hi : i.opcode ∉ [.rgCfg, .rgClr, .rgPush, .rgFin]) : p.1.acc = u.acc ∧ p.1.cnt = u.cnt ∧ p.1.err = u.err := by
  cases h with
  | configured _ _ _ h => simp [h] at hi
  | cleared h => simp [h, Instr.opcode] at hi
  | converted _ _ _ _ h => exact absurd (List.mem_append_right [Opcode.rgCfg, .rgClr] h) hi
  | raised _ _ h =>
    have hlisted : [Opcode.rgCfg, .rgPush, .rgFin] ⊆ [.rgCfg, .rgClr, .rgPush, .rgFin] := by decide
    exact absurd (hlisted h) hi
  | shown | blocked => exact ⟨rfl, rfl, rfl⟩

theorem RgOutcome.config_eq {u : RgUnit} {p : RgUnit × Response} (h : RgOutcome i u p) (hi : i.opcode ≠ .rgCfg) :
    p.1.inW = u.inW ∧ p.1.outW = u.outW ∧ p.1.pad = u.pad := by
  cases h with
  | configured _ _ _ h => exact absurd h hi
  | cleared | converted | raised | shown | blocked => exact ⟨rfl, rfl, rfl⟩

end Outcome

/-- Settles O46: what the outcomes of a command leave of its own unit; the rest is as it was. -/
theorem registersWrittenOnlyByTheirCommands : Obligations.RegistersWrittenOnlyByTheirCommands := by
  unfold Obligations.RegistersWrittenOnlyByTheirCommands
  intro i s t h
  obtain ⟨-, p, hp, rfl⟩ | ⟨-, p, hp, rfl⟩ := exec_next_outcome h
  · exact ⟨⟨rfl, rfl, rfl⟩, hp.acc_eq, hp.err_eq, fun _ => ⟨rfl, rfl, rfl⟩, fun _ => ⟨rfl, rfl, rfl⟩⟩
  · exact ⟨⟨rfl, rfl, rfl⟩, fun _ => rfl, fun _ => rfl, hp.buffer_eq, hp.config_eq⟩

/-! The latches. -/

section Latches

variable {i : Instr}

/-- A blocked command answers a reserved status exactly when the latch holds one: every status of its own is below 8. -/
theorem CkOutcome.reserved_iff {u : CkUnit} {p : CkUnit × Response} (h : CkOutcome i u p) (hblock : Blockable i = true) :
    8 ≤ p.2.status.toNat ↔ 8 ≤ u.err.toNat := by
  cases h with
  | started h => simp [h] at hblock
  | folded _ _ _ hfree => simp [hfree, okResponse, statusCode]
  | raised st _ _ hfree => simpa [hfree] using statusCode_lt st
  | reported code _ hcode _ hfree => obtain rfl | rfl := hcode <;> simp [hfree hblock]
  | blocked => rfl

theorem RgOutcome.reserved_iff {u : RgUnit} {p : RgUnit × Response} (h : RgOutcome i u p) (hblock : Blockable i = true) :
    8 ≤ p.2.status.toNat ↔ 8 ≤ u.err.toNat := by
  cases h with
  | configured _ _ _ h => cases i <;> simp [Instr.opcode] at h hblock
  | cleared h | shown _ h => simp [h] at hblock
  | converted _ _ _ _ _ hfree => simp [hfree, groupsResponse, statusCode]
  | raised st _ _ hfree => simpa [hfree hblock] using statusCode_lt st
  | blocked => rfl

end Latches

/-- Settles O44: the model stops exactly where a command would answer a reserved status (`respond_eq_fault`). -/
theorem reservedLatchStops : Obligations.ReservedLatchStops := by
  unfold Obligations.ReservedLatchStops
  intro i s hblock
  cases hunit : i.unit with
  | ck =>
    obtain ⟨f, hf, houtcome⟩ := exec_ckOutcome hunit
    simp only [unitErr, hunit, hf]
    exact respond_eq_fault.trans ((houtcome s.ck).reserved_iff hblock)
  | rg =>
    obtain ⟨f, hf, houtcome⟩ := exec_rgOutcome hunit
    simp only [unitErr, hunit, hf]
    exact respond_eq_fault.trans ((houtcome s.rg).reserved_iff hblock)

end Sys2Proof.Machine

/-! ### The first error stays latched (spec 10_state R25, R30; 60_exceptions R143) -/

namespace Sys2Proof.Machine

section Latches

variable {i : Instr}

/-- R25: what a CK command other than CK_INIT leaves in the latch. -/
theorem CkOutcome.err_of_ne_init {u : CkUnit} {p : CkUnit × Response} (h : CkOutcome i u p) (hi : i ≠ .ckInit) :
    p.1.err =
      if u.err ≠ 0#4 then u.err else if p.2.status = 3#4 ∨ p.2.status = 4#4 then p.2.status else 0#4 := by
  cases h with
  | started h => exact absurd h hi
  | folded _ _ _ hfree => simp [hfree, okResponse, statusCode]
  | raised st hst _ hfree => obtain rfl | rfl := hst <;> simp [hfree, statusCode]
  | reported code _ hcode =>
    by_cases hfree : u.err = 0#4
    · obtain rfl | rfl := hcode <;> simp [hfree]
    · simp [hfree]
  | blocked _ hlatched => simp [hlatched]

theorem CkOutcome.err_init {u : CkUnit} {p : CkUnit × Response} (h : CkOutcome .ckInit u p) : p.1.err = 0#4 := by
  cases h with
  | started => rfl
  | folded _ _ hi | raised _ _ hi | reported _ _ _ hi => simp [Instr.opcode] at hi
  | blocked hblock => simp at hblock

/-- RG_CLR, and RG_CFG when it raises nothing, clear the latch (R30). -/
def ClearsRgErr (i : Instr) (r : Response) : Prop := i = .rgClr ∨ (i.opcode = .rgCfg ∧ r.status = 0#4)

theorem RgOutcome.err_of_clears {u : RgUnit} {p : RgUnit × Response} (h : RgOutcome i u p) (hi : ClearsRgErr i p.2) :
    p.1.err = 0#4 := by
  cases h with
  | configured | cleared => rfl
  | converted _ _ _ _ h => obtain rfl | ⟨hop, -⟩ := hi <;> simp_all [Instr.opcode]
  | raised st hst h =>
    obtain rfl | ⟨-, hok⟩ := hi
    · simp [Instr.opcode] at h
    · obtain rfl | rfl | rfl := hst <;> simp [statusCode] at hok
  | shown _ h => simp [h, ClearsRgErr, Instr.opcode] at hi
  | blocked hblock =>
    obtain rfl | ⟨hop, -⟩ := hi
    · simp at hblock
    · cases i <;> simp [Instr.opcode] at hop hblock

/-- R30: what any other answer of an RG command leaves in the latch. -/
theorem RgOutcome.err_of_not_clears {u : RgUnit} {p : RgUnit × Response} (h : RgOutcome i u p) (hi : ¬ ClearsRgErr i p.2) :
    p.1.err =
      if u.err ≠ 0#4 then u.err
      else if p.2.status = 2#4 ∨ p.2.status = 6#4 ∨ p.2.status = 7#4 then p.2.status else 0#4 := by
  cases h with
  | configured _ _ _ h => exact absurd (.inr ⟨h, rfl⟩) hi
  | cleared h => exact absurd (.inl h) hi
  | converted _ _ _ _ _ hfree => simp [hfree, groupsResponse, statusCode]
  | raised st hst =>
    by_cases hfree : u.err = 0#4
    · obtain rfl | rfl | rfl := hst <;> simp [hfree, statusCode]
    · simp [hfree, latch_taken hfree]
  | shown =>
    by_cases hfree : u.err = 0#4 <;> simp [hfree, okResponse, statusCode]
  | blocked _ hlatched => simp [hlatched]

end Latches

theorem ck_err_of_exec {i : Instr} {s t : State} {f : InFlight} (hexec : exec i s = .next t) (hf : t.inFlight = some f) :
    t.ck.err = if i = .ckInit then 0#4
      else if s.ck.err ≠ 0#4 then s.ck.err
      else if i.unit = .ck ∧ (f.rsp.status = 3#4 ∨ f.rsp.status = 4#4) then f.rsp.status
      else 0#4 := by
  obtain ⟨hunit, p, hp, rfl⟩ | ⟨hunit, p, -, rfl⟩ := exec_next_outcome hexec
  · obtain rfl : InFlight.mk p.2 s.edge = f := by simpa using hf
    split
    case isTrue hi => exact CkOutcome.err_init (hi ▸ hp)
    case isFalse hi => simpa [hunit] using hp.err_of_ne_init hi
  · have hi : i ≠ .ckInit := by rintro rfl; simp [Instr.unit] at hunit
    by_cases hfree : s.ck.err = 0#4 <;> simp [hi, hunit, hfree]

theorem rg_err_of_exec {i : Instr} {s t : State} {f : InFlight} (hexec : exec i s = .next t) (hf : t.inFlight = some f) :
    t.rg.err = if i = .rgClr ∨ (i.opcode = .rgCfg ∧ f.rsp.status = 0#4) then 0#4
      else if s.rg.err ≠ 0#4 then s.rg.err
      else if i.unit = .rg ∧ (f.rsp.status = 2#4 ∨ f.rsp.status = 6#4 ∨ f.rsp.status = 7#4) then f.rsp.status
      else 0#4 := by
  obtain ⟨hunit, p, -, rfl⟩ | ⟨hunit, p, hp, rfl⟩ := exec_next_outcome hexec
  · have hi : i ≠ .rgClr ∧ i.opcode ≠ .rgCfg := by cases i <;> simp [Instr.unit, Instr.opcode] at hunit ⊢
    by_cases hfree : s.rg.err = 0#4 <;> simp [hi, hunit, hfree]
  · obtain rfl : InFlight.mk p.2 s.edge = f := by simpa using hf
    split
    case isTrue hi => exact hp.err_of_clears hi
    case isFalse hi => simpa [hunit] using hp.err_of_not_clears hi

/-! What one edge does to the registers. -/

/-- The block accepts a word exactly at an edge without reset at which it is idle and the host offers one (R71, log 4). -/
theorem acceptsAt_iff {s : State} :
    acceptsAt s = true ↔ (pins s).rst = false ∧ s.inFlight = none ∧ (pins s).cmdValid = true := by
  simp [acceptsAt, portOut_cmdReady, and_assoc]

/-- Every edge that answers a next state resets the registers, accepts a word and runs its command, or keeps them. -/
theorem step_registers {s t : State} (h : step s = .next t) :
    ((pins s).rst = true ∧ t.ck = State.reset.ck ∧ t.rg = State.reset.rg) ∨
      (acceptsAt s = true ∧ ∃ i, decode (pins s).cmdWord = .command i ∧ exec i (idleEdge s) = .next t) ∨
      (t.ck = s.ck ∧ t.rg = s.rg) := by
  obtain ⟨hrst, rfl⟩ | ⟨hrst, -, ⟨-, rfl⟩ | ⟨hidle, hvalid, haccept⟩ | ⟨-, -, rfl⟩⟩ := step_next_cases h
  · exact .inl ⟨hrst, rfl, rfl⟩
  · exact .inr (.inr ⟨rfl, rfl⟩)
  · cases hw : decode (pins s).cmdWord with
    | command i => exact .inr (.inl ⟨acceptsAt_iff.mpr ⟨hrst, hidle, hvalid⟩, i, rfl, acceptWord_command hw _ ▸ haccept⟩)
    | illegal k =>
      obtain rfl := Host.Outcome.next.inj ((acceptWord_illegal hw _).symm.trans haccept)
      exact .inr (.inr ⟨rfl, rfl⟩)
  · exact .inr (.inr ⟨rfl, rfl⟩)

/-- Settles O19: `step_registers` without its accepting edge. -/
theorem onlyResetChangesIdleRegisters : Obligations.OnlyResetChangesIdleRegisters := by
  unfold Obligations.OnlyResetChangesIdleRegisters
  intro s t h hidle
  obtain hreset | ⟨haccepts, -⟩ | hkept := step_registers h
  · exact .inr hreset
  · simp [hidle] at haccepts
  · exact .inl hkept

/-- Every command answers. -/
theorem exec_next_inFlight {i : Instr} {s t : State} (h : exec i s = .next t) : ∃ f, t.inFlight = some f := by
  obtain ⟨-, p, -, rfl⟩ | ⟨-, p, -, rfl⟩ := exec_next_outcome h <;> exact ⟨_, rfl⟩

/-- Settles O47: a latch taken is cleared by CK_INIT alone (`ck_err_of_exec`), at an edge that accepts it, or by reset. -/
theorem ckErrLatchesFirstError : Obligations.CkErrLatchesFirstError := by
  unfold Obligations.CkErrLatchesFirstError
  refine ⟨fun i s t f => ck_err_of_exec, fun s t h hlatched hcleared => ?_⟩
  obtain ⟨hrst, -⟩ | ⟨haccepts, i, hw, hexec⟩ | ⟨hck, -⟩ := step_registers h
  · exact .inl hrst
  · obtain ⟨f, hf⟩ := exec_next_inFlight hexec
    by_cases hi : i = .ckInit
    · exact .inr ⟨haccepts, hi ▸ hw⟩
    · have hkept : t.ck.err = s.ck.err := by simp [ck_err_of_exec hexec hf, hi, hlatched]
      exact absurd (hkept ▸ hcleared) hlatched
  · exact absurd (hck ▸ hcleared) hlatched

/-- Settles O48: a latch taken is cleared by RG_CLR or RG_CFG alone (`rg_err_of_exec`), at an edge that accepts it, or by reset. -/
theorem rgErrLatchesFirstError : Obligations.RgErrLatchesFirstError := by
  unfold Obligations.RgErrLatchesFirstError
  refine ⟨fun i s t f => rg_err_of_exec, fun s t h hlatched hcleared => ?_⟩
  obtain ⟨hrst, -⟩ | ⟨haccepts, i, hw, hexec⟩ | ⟨-, hrg⟩ := step_registers h
  · exact .inl hrst
  · obtain ⟨f, hf⟩ := exec_next_inFlight hexec
    by_cases hi : i.opcode = .rgClr ∨ i.opcode = .rgCfg
    · exact .inr ⟨haccepts, i, hw, hi⟩
    · have hclr : i ≠ .rgClr := by rintro rfl; simp [Instr.opcode] at hi
      have hkept : t.rg.err = s.rg.err := by simp [rg_err_of_exec hexec hf, hclr, not_or.mp hi, hlatched]
      exact absurd (hkept ▸ hcleared) hlatched
  · exact absurd (hrg ▸ hcleared) hlatched

end Sys2Proof.Machine

/-! ### Every word is answered, and legally (spec 10_state R20; 30_encoding R66 to R69; 60_exceptions R130) -/

namespace Sys2Proof.Machine

theorem legal_of_no_groups {code : Code} {data : BitVec 64} (hcode : code.toNat < 8)
    (hdata : code ≠ 0#4 → code ≠ 5#4 → data = 0#64) : Response.Legal ⟨code, 0#4, data⟩ :=
  ⟨hcode, Nat.zero_le 8, fun _ => rfl, hdata, absurd rfl⟩

/-- The groups fill the lowest bytes. -/
theorem packGroups_lt (gs : List Byte) : (packGroups gs).toNat < 2 ^ (8 * gs.length) := by
  induction gs with
  | nil => simp [packGroups]
  | cons g gs ih =>
    have hfirst : (zext64 g).toNat < 2 ^ (8 * (gs.length + 1)) :=
      calc (zext64 g).toNat ≤ g.toNat := by simp [zext64, Nat.mod_le]
        _ < 2 ^ 8 := g.isLt
        _ ≤ 2 ^ (8 * (gs.length + 1)) := Nat.pow_le_pow_right (by decide) (by omega)
    have hrest : (packGroups gs <<< 8).toNat < 2 ^ (8 * (gs.length + 1)) :=
      calc (packGroups gs <<< 8).toNat ≤ (packGroups gs).toNat * 2 ^ 8 := by
            rw [BitVec.toNat_shiftLeft, Nat.shiftLeft_eq]; exact Nat.mod_le _ _
        _ < 2 ^ (8 * gs.length) * 2 ^ 8 := Nat.mul_lt_mul_of_pos_right ih (by decide)
        _ = 2 ^ (8 * (gs.length + 1)) := (Nat.pow_add ..).symm
    exact (BitVec.toNat_or ..).trans_lt (Nat.or_lt_two_pow hfirst hrest)

theorem legal_groupsResponse {gs : List Byte} (h : gs.length ≤ 8) : (groupsResponse gs).Legal := by
  have hcount := groupsResponse_count h
  refine ⟨statusCode_lt .ok, hcount.trans_le h, absurd rfl, absurd rfl, fun _ => ?_⟩
  rw [hcount]
  exact packGroups_lt gs

theorem CkOutcome.legal {i : Instr} {u : CkUnit} {p : CkUnit × Response} (h : CkOutcome i u p) (hlegal : u.Legal) :
    p.1.Legal ∧ p.2.Legal := by
  cases h with
  | started => exact ⟨.inl rfl, legal_of_no_groups (statusCode_lt .ok) (absurd rfl)⟩
  | folded _ _ _ hfree => exact ⟨.inl hfree, legal_of_no_groups (statusCode_lt .ok) (absurd rfl)⟩
  | raised st hst _ hfree =>
    refine ⟨?_, legal_of_no_groups (statusCode_lt st) fun _ _ => rfl⟩
    obtain rfl | rfl := hst <;> simp [CkUnit.Legal, hfree, statusCode]
  | reported code _ hcode =>
    refine ⟨hlegal, ?_⟩
    obtain rfl | rfl := hcode
    · exact legal_of_no_groups (by decide) (absurd rfl)
    · exact legal_of_no_groups (by decide) fun _ => absurd rfl
  | blocked => exact ⟨hlegal, legal_of_no_groups hlegal.err_lt fun _ _ => rfl⟩

theorem RgOutcome.response_legal {i : Instr} {u : RgUnit} {p : RgUnit × Response} (h : RgOutcome i u p) (hlegal : u.Legal) :
    p.2.Legal := by
  cases h with
  | configured | cleared | shown => exact legal_of_no_groups (statusCode_lt .ok) (absurd rfl)
  | converted _ _ _ hgs => exact legal_groupsResponse (hgs hlegal)
  | raised st => exact legal_of_no_groups (statusCode_lt st) fun _ _ => rfl
  | blocked => exact legal_of_no_groups hlegal.err_lt fun _ _ => rfl

theorem exec_keeps_inv {i : Instr} {s t : State} (hinv : s.Inv) (h : exec i s = .next t) : t.Inv := by
  obtain ⟨hck, hrg, -⟩ := hinv
  obtain ⟨-, p, hp, ht⟩ | ⟨-, p, hp, ht⟩ := exec_next_outcome h
  · obtain ⟨hunit, hrsp⟩ := hp.legal hck
    rw [ht]
    exact ⟨hunit, hrg, by simpa using hrsp⟩
  · obtain ⟨hunit, -⟩ := exec_legalAnswer hrg h (ht ▸ rfl : t.inFlight = some ⟨p.2, s.edge⟩)
    rw [ht] at hunit ⊢
    exact ⟨hck, hunit, by simpa using hp.response_legal hrg⟩

theorem acceptWord_keeps_inv {w : Word} {s t : State} (hinv : s.Inv) (h : acceptWord w s = .next t) : t.Inv := by
  cases hw : decode w with
  | command i => exact exec_keeps_inv hinv (acceptWord_command hw s ▸ h)
  | illegal k =>
    obtain rfl := Host.Outcome.next.inj ((acceptWord_illegal hw s).symm.trans h)
    obtain ⟨hck, hrg, -⟩ := hinv
    have hrsp : Response.Legal ⟨1#4, 0#4, 0#64⟩ := legal_of_no_groups (by decide) fun _ _ => rfl
    exact ⟨hck, hrg, by simpa using hrsp⟩

/-- In a legal state no word stops the model. -/
theorem acceptWord_answers {s : State} (hinv : s.Inv) (w : Word) : ∃ t, acceptWord w s = .next t := by
  cases hw : decode w with
  | command i =>
    obtain ⟨ck, rg, r, hanswers, -⟩ := answersStatus_commandStatus hinv i
    exact ⟨_, (acceptWord_command hw s).trans hanswers⟩
  | illegal k => exact ⟨_, acceptWord_illegal hw s⟩

/-- An accepted word puts one response in flight and leaves the ports alone; what it does to the units, and what it answers, depends on the
units alone. -/
theorem acceptWord_next {w : Word} {s t : State} (h : acceptWord w s = .next t) :
    ∃ r, t.inFlight = some ⟨r, s.edge⟩ ∧ SamePorts s t ∧ ∀ v : State, v.ck = s.ck → v.rg = s.rg →
      acceptWord w v = .next { v with ck := t.ck, rg := t.rg, inFlight := some ⟨r, v.edge⟩ } := by
  cases hw : decode w with
  | command i =>
    simp only [acceptWord_command hw] at h ⊢
    obtain ⟨-, f, hf⟩ | ⟨-, f, hf⟩ := exec_on_unit i
    · rw [hf, onCk_eq_next] at h
      obtain ⟨hstatus, rfl⟩ := h
      refine ⟨_, rfl, ⟨rfl, rfl, rfl⟩, fun v hck hrg => ?_⟩
      rw [hf, onCk_eq_next, hck]
      exact ⟨hstatus, by simp [← hrg]⟩
    · rw [hf, onRg_eq_next] at h
      obtain ⟨hstatus, rfl⟩ := h
      refine ⟨_, rfl, ⟨rfl, rfl, rfl⟩, fun v hck hrg => ?_⟩
      rw [hf, onRg_eq_next, hrg]
      exact ⟨hstatus, by simp [← hck]⟩
  | illegal k =>
    obtain rfl := Host.Outcome.next.inj ((acceptWord_illegal hw s).symm.trans h)
    refine ⟨_, rfl, ⟨rfl, rfl, rfl⟩, fun v hck hrg => ?_⟩
    rw [acceptWord_illegal hw, ← hck, ← hrg]

/-- Settles O21: the word is answered (`acceptWord_answers`), and taking its response leaves the units legal. -/
theorem everyWordHasOneResponse : Obligations.EveryWordHasOneResponse := by
  unfold Obligations.EveryWordHasOneResponse
  intro s w hinv
  obtain ⟨t, ht⟩ := acceptWord_answers hinv w
  obtain ⟨r, hf, hports, -⟩ := acceptWord_next ht
  obtain ⟨hck, hrg, hinFlight⟩ := acceptWord_keeps_inv hinv ht
  obtain ⟨hrsp, -⟩ := hinFlight ⟨r, s.edge⟩ hf
  exact ⟨{ t with inFlight := none }, r, transact_eq_some.mpr ⟨t, _, ht, hf, rfl, rfl⟩, ⟨hck, hrg, by simp⟩, hrsp, hports⟩

/-! ### What one edge does (spec 30_encoding R70 to R73; 70_reset R150, R151; 93 U6) -/

theorem inv_idleEdge {s : State} (hinv : s.Inv) : (idleEdge s).Inv := by
  obtain ⟨hck, hrg, hf⟩ := hinv
  exact ⟨hck, hrg, fun f h => ⟨(hf f h).1, Nat.le_succ_of_le (hf f h).2⟩⟩

theorem inv_reset : State.reset.Inv := by decide

/-- Settles O16: edge by edge; at an accepting edge by `acceptWord_keeps_inv`. -/
theorem stepKeepsInvariant : Obligations.StepKeepsInvariant := by
  unfold Obligations.StepKeepsInvariant
  intro s t hinv h
  obtain ⟨-, rfl⟩ | ⟨-, -, ⟨-, rfl⟩ | ⟨-, -, haccept⟩ | ⟨-, -, rfl⟩⟩ := step_next_cases h
  · obtain ⟨hck, hrg, -⟩ := inv_reset
    exact ⟨hck, hrg, by simp⟩
  · obtain ⟨hck, hrg, hf⟩ := inv_idleEdge hinv
    refine ⟨hck, hrg, fun f h => hf f ?_⟩
    rw [inFlightEdge_inFlight] at h
    split at h
    · simp at h
    · exact h
  · exact acceptWord_keeps_inv (inv_idleEdge hinv) haccept
  · exact inv_idleEdge hinv

section Edge

variable {s : State}

theorem step_broken (hrst : (pins s).rst = false) (h : ¬ OfferKept s) : step s = .refused .handshakeViolation := by
  rw [← handshakeBroken_eq_false, Bool.not_eq_false] at h
  simp [step, hrst, h]

theorem step_inFlight {f : InFlight} (hrst : (pins s).rst = false) (hkept : OfferKept s) (hf : s.inFlight = some f) :
    step s = .next (inFlightEdge s) := by
  simp [step, hrst, handshakeBroken_eq_false.mpr hkept, hf]

theorem step_accept (hrst : (pins s).rst = false) (hkept : OfferKept s) (hidle : s.inFlight = none)
    (hvalid : (pins s).cmdValid = true) : step s = acceptWord (pins s).cmdWord (idleEdge s) := by
  simp [step, hrst, handshakeBroken_eq_false.mpr hkept, hidle, hvalid]

theorem step_idle (hrst : (pins s).rst = false) (hkept : OfferKept s) (hidle : s.inFlight = none)
    (hvalid : (pins s).cmdValid = false) : step s = .next (idleEdge s) := by
  simp [step, hrst, handshakeBroken_eq_false.mpr hkept, hidle, hvalid]

/-- From a legal state every edge without a broken offer answers a next state. -/
theorem step_answers (hinv : s.Inv) (h : (pins s).rst = true ∨ OfferKept s) : ∃ t, step s = .next t := by
  cases hrst : (pins s).rst with
  | true => exact ⟨_, step_reset hrst⟩
  | false =>
    have hkept : OfferKept s := h.resolve_left (by simp [hrst])
    cases hf : s.inFlight with
    | some f => exact ⟨_, step_inFlight hrst hkept hf⟩
    | none =>
      cases hvalid : (pins s).cmdValid with
      | true => exact step_accept hrst hkept hf hvalid ▸ acceptWord_answers (inv_idleEdge hinv) _
      | false => exact ⟨_, step_idle hrst hkept hf hvalid⟩

/-- From a legal state the one way to stop is a broken offer, which is no fault. -/
theorem step_ne_fault (hinv : s.Inv) (x : Fault) : step s ≠ .fault x := by
  intro h
  by_cases hgoes : (pins s).rst = true ∨ OfferKept s
  · obtain ⟨t, ht⟩ := step_answers hinv hgoes
    simp [ht] at h
  · obtain ⟨hrst, hbroken⟩ := not_or.mp hgoes
    simp [step_broken (by simpa using hrst) hbroken] at h

end Edge

/-- Settles O8: the accepting edge (`step_accept`) of a word that is a command. -/
theorem stepRunsDecodedCommand : Obligations.StepRunsDecodedCommand := by
  unfold Obligations.StepRunsDecodedCommand
  intro s i hrst hvalid hidle hkept hw
  exact (step_accept hrst hkept hidle hvalid).trans (acceptWord_command hw _)

/-- Settles O10: the accepting edge, and the three edges that accept nothing: reset, a command in flight, nothing offered. -/
theorem commandTransfer : Obligations.CommandTransfer := by
  unfold Obligations.CommandTransfer
  intro s hkept accepts
  have haccepts : accepts ↔ (pins s).rst = false ∧ (pins s).cmdValid = true ∧ s.inFlight = none := by
    simp only [accepts, portOut_cmdReady, Bool.and_eq_true, Bool.not_eq_true', Option.isNone_iff_eq_none]
    tauto
  rw [haccepts]
  refine ⟨fun ⟨hrst, hvalid, hidle⟩ => step_accept hrst hkept hidle hvalid, fun hnot => ?_⟩
  cases hrst : (pins s).rst with
  | true => exact ⟨_, step_reset hrst, .inr rfl, .inr ⟨rfl, rfl, rfl⟩, fun w => unaccepted_eq_some⟩
  | false =>
    cases hf : s.inFlight with
    | some f =>
      refine ⟨_, step_inFlight hrst hkept hf, ?_, .inl ⟨rfl, rfl, rfl⟩, fun w => unaccepted_eq_some⟩
      rw [inFlightEdge_inFlight, hf]
      split <;> simp
    | none =>
      have hvalid : (pins s).cmdValid = false := by simpa [hrst, hf] using hnot
      exact ⟨_, step_idle hrst hkept hf hvalid, .inl hf, .inl ⟨rfl, rfl, rfl⟩, by simp [hvalid]⟩

/-- Settles O11: reset is asked before the offer (`step_reset`), the offer before all else (`step_broken`). -/
theorem brokenOfferHasNoStep : Obligations.BrokenOfferHasNoStep := by
  unfold Obligations.BrokenOfferHasNoStep
  intro s w hheld hbroken
  have hnot : ¬ OfferKept s := by
    simp only [OfferKept, hheld, Option.some.injEq, reduceCtorEq, false_or, not_and]
    intro hvalid hsame
    exact hbroken.elim (by simp [hvalid]) (absurd hsame.symm)
  refine ⟨fun h => ?_, fun hrst => step_broken hrst hnot⟩
  cases hrst : (pins s).rst with
  | false => rfl
  | true => simp [step_reset hrst] at h

/-- Settles O15: `step_answers` and `step_broken`. -/
theorem stepStopsOnlyOnBrokenOffer : Obligations.StepStopsOnlyOnBrokenOffer := by
  unfold Obligations.StepStopsOnlyOnBrokenOffer
  exact fun s hinv => ⟨step_answers hinv, fun ⟨hrst, hbroken⟩ => step_broken hrst hbroken⟩

/-- Settles O17: field by field; the output pins by their laws. -/
theorem resetStateIsLegal : Obligations.ResetStateIsLegal := by
  unfold Obligations.ResetStateIsLegal
  exact ⟨inv_reset, rfl, rfl, rfl, by rw [portOut_cmdReady]; rfl, by rw [portOut_rspValid]; rfl⟩

end Sys2Proof.Machine

/-! ### Responses over many edges (spec 30_encoding R71 to R73; 20_memory R48; 70_reset R161) -/

namespace Sys2Proof.Machine

/-! One edge, and what an observer of the ports sees at it. -/

section Edge

variable {s t : State} {f : InFlight}

theorem pins_of_inputs {P : PortIn → Prop} (hidle : P idlePins) (h : ∀ p ∈ s.inputs, P p) : P (pins s) := by
  unfold pins
  cases hin : s.inputs with
  | nil => exact hidle
  | cons p ps => exact h p (hin ▸ List.mem_cons_self)

theorem step_inputs (h : step s = .next t) : t.inputs = s.inputs.tail := by
  obtain ⟨-, rfl⟩ | ⟨-, -, ⟨-, rfl⟩ | ⟨-, -, haccept⟩ | ⟨-, -, rfl⟩⟩ := step_next_cases h
  · rfl
  · rfl
  · obtain ⟨-, -, ⟨-, hinputs, -⟩, -⟩ := acceptWord_next haccept
    exact hinputs
  · rfl

/-- Without reset an edge with a command in flight can only be `inFlightEdge`. -/
theorem step_inFlight_next (hf : s.inFlight = some f) (hrst : (pins s).rst = false) (h : step s = .next t) :
    t = inFlightEdge s := by
  obtain ⟨hreset, -⟩ | ⟨-, -, ⟨-, rfl⟩ | ⟨hidle, -⟩ | ⟨hidle, -⟩⟩ := step_next_cases h
  · simp [hrst] at hreset
  · rfl
  · simp [hf] at hidle
  · simp [hf] at hidle

theorem acceptsAt_inFlight (hf : s.inFlight = some f) : acceptsAt s = false := by
  simp [acceptsAt, portOut_cmdReady, hf]

theorem takesAt_idle (hidle : s.inFlight = none) : takesAt s = false := by
  simp [takesAt, portOut_rspValid, offered_idle hidle]

theorem rspValid_iff (hrst : (pins s).rst = false) : (portOut s).rspValid = true ↔ offered s = true := by
  simp [portOut_rspValid, hrst]

/-- The response taken at an edge is the one in flight. -/
theorem taken_inFlight (hf : s.inFlight = some f) (hrst : (pins s).rst = false) :
    (if takesAt s then [(⟨(portOut s).rspStatus, (portOut s).rspCount, (portOut s).rspData⟩ : Response)] else []) =
      if offered s && (pins s).rspReady then [f.rsp] else [] := by
  cases hoff : offered s with
  | false => simp [takesAt, portOut_rspValid, hoff]
  | true =>
    have hvalid := (rspValid_iff hrst).mpr hoff
    obtain ⟨hstatus, hcount, hdata⟩ := portOut_response hf hvalid
    rw [hstatus, hcount, hdata, takesAt, hvalid]

/-! The first of several edges. -/

theorem run_succ (h : step s = .next t) (k : Nat) : Host.Core.run core (k + 1) s = Host.Core.run core k t := by
  have hcore : core.step s = .next t := h
  simp [Host.Core.run, hcore]

theorem run_succ_next {k : Nat} {u : State} (h : Host.Core.run core (k + 1) s = .next u) :
    ∃ t, step s = .next t ∧ Host.Core.run core k t = .next u := by
  cases hstep : step s with
  | next t => exact ⟨t, rfl, run_succ hstep k ▸ h⟩
  | fault x =>
    have hcore : core.step s = .fault x := hstep
    simp [Host.Core.run, hcore] at h
  | refused x =>
    have hcore : core.step s = .refused x := hstep
    simp [Host.Core.run, hcore] at h

theorem acceptedWords_succ_accepts (h : step s = .next t) (haccepts : acceptsAt s = true) (k : Nat) :
    acceptedWords (k + 1) s = (pins s).cmdWord :: acceptedWords k t := by
  simp [acceptedWords, h, haccepts]

theorem acceptedWords_succ (h : step s = .next t) (haccepts : acceptsAt s = false) (k : Nat) :
    acceptedWords (k + 1) s = acceptedWords k t := by
  simp [acceptedWords, h, haccepts]

theorem takenResponses_succ_inFlight (h : step s = .next t) (hf : s.inFlight = some f) (hrst : (pins s).rst = false)
    (k : Nat) :
    takenResponses (k + 1) s = (if offered s && (pins s).rspReady then [f.rsp] else []) ++ takenResponses k t := by
  simp only [takenResponses, h, taken_inFlight hf hrst]

theorem takenResponses_succ_idle (h : step s = .next t) (hidle : s.inFlight = none) (k : Nat) :
    takenResponses (k + 1) s = takenResponses k t := by
  simp [takenResponses, h, takesAt_idle hidle]

end Edge

/-- Settles O12: an accepted word puts its response in flight (`acceptWord_next`), and from there the edges are `inFlightEdge`; an offered
response stays offered, since the count of edges only grows. -/
theorem responseTransfer : Obligations.ResponseTransfer := by
  unfold Obligations.ResponseTransfer
  refine ⟨fun s t haccepts h => ?_, fun s t f hf hrst h => ?_⟩
  · obtain ⟨hrst, hidle, hvalid⟩ := acceptsAt_iff.mp haccepts
    obtain ⟨hreset, -⟩ | ⟨-, hkept, -⟩ := step_next_cases h
    · simp [hrst] at hreset
    · rw [step_accept hrst hkept hidle hvalid] at h
      obtain ⟨r, hinFlight, ⟨-, -, hedge⟩, -⟩ := acceptWord_next h
      exact ⟨by simp [portOut_rspValid, offered_idle hidle], r, hedge ▸ hinFlight, hedge⟩
  · obtain rfl := step_inFlight_next hf hrst h
    simp only [rspValid_iff hrst, ← Bool.not_eq_true, inFlightEdge_inFlight]
    refine ⟨fun hoff hready => by simp [hoff, hready], fun hnot => ?_, fun hoff => ?_⟩
    · rw [if_neg (by simpa using not_and_or.mpr hnot), hf]
    · have hlatency := (offered_iff hf).mp hoff
      refine ⟨(Nat.le_add_right _ _).trans hlatency, ?_⟩
      obtain ⟨hstatus, hcount, hdata⟩ := portOut_response hf ((rspValid_iff hrst).mpr hoff)
      refine ⟨hstatus, hcount, hdata, fun hready hrst' => ?_⟩
      have hf' : (inFlightEdge s).inFlight = some f := by simp [hready, hf]
      have hvalid := (rspValid_iff (by simpa using hrst')).mpr ((offered_iff hf').mpr (Nat.le_succ_of_le hlatency))
      exact ⟨hvalid, portOut_response hf' hvalid⟩

/-- A host that never takes the response blocks the block. -/
theorem run_untaken {k : Nat} {s t : State} {f : InFlight} (hf : s.inFlight = some f)
    (hpins : ∀ p ∈ s.inputs, p.rst = false ∧ p.rspReady = false) (h : Host.Core.run core k s = .next t) :
    t.inFlight = some f ∧ t.ck = s.ck ∧ t.rg = s.rg ∧ acceptedWords k s = [] := by
  induction k generalizing s with
  | zero =>
    obtain rfl := Host.Outcome.next.inj h
    exact ⟨hf, rfl, rfl, rfl⟩
  | succ k ih =>
    obtain ⟨u, hstep, hrun⟩ := run_succ_next h
    obtain ⟨hrst, hready⟩ := pins_of_inputs ⟨rfl, rfl⟩ hpins
    obtain rfl := step_inFlight_next hf hrst hstep
    rw [acceptedWords_succ hstep (acceptsAt_inFlight hf)]
    exact ih (by simp [hready, hf]) (fun p hp => hpins p (List.mem_of_mem_tail hp)) hrun

/-- Settles O13: `portOut_cmdReady` and `run_untaken`. -/
theorem oneCommandInFlight : Obligations.OneCommandInFlight := by
  unfold Obligations.OneCommandInFlight
  exact ⟨fun s f hf => by simp [portOut_cmdReady, hf], fun k s t f => run_untaken⟩

/-- At an edge with a command in flight a host that is ready takes the response if it is offered. -/
theorem ready_edge {s : State} {f : InFlight} {p : PortIn} {ps : List PortIn} (hf : s.inFlight = some f)
    (hinputs : s.inputs = p :: ps) (hready : p.rst = false ∧ p.rspReady = true) (hkept : OfferKept s) :
    step s = .next (inFlightEdge s) ∧ (inFlightEdge s).inFlight = (if offered s then none else some f) ∧
      ∀ k, takenResponses (k + 1) s = (if offered s then [f.rsp] else []) ++ takenResponses k (inFlightEdge s) := by
  have hpins : pins s = p := by simp [pins, hinputs]
  rw [← hpins] at hready
  obtain ⟨hrst, hrdy⟩ := hready
  have hstep := step_inFlight hrst hkept hf
  refine ⟨hstep, by simp [hrdy, hf], fun k => ?_⟩
  simp [takenResponses_succ_inFlight hstep hf hrst, hrdy]

/-- A host that is ready takes the response in flight at the first edge at which its latency is over, `k` edges from here. -/
theorem run_takes {k : Nat} {s : State} {f : InFlight} {ps rest : List PortIn} (hf : s.inFlight = some f)
    (hk : f.since + Config.extraLatency f.since - s.edge = k) (hinputs : s.inputs = ps ++ rest) (hlength : ps.length = k + 1)
    (hready : ∀ p ∈ ps, p.rst = false ∧ p.rspReady = true) (hkept : offersKept s.held ps = true) :
    ∃ t, Host.Core.run core (k + 1) s = .next t ∧ takenResponses (k + 1) s = [f.rsp] ∧ acceptedWords (k + 1) s = [] ∧
      t.inFlight = none ∧ t.ck = s.ck ∧ t.rg = s.rg ∧ t.inputs = rest := by
  induction k generalizing s ps with
  | zero =>
    obtain ⟨p, rfl⟩ := List.length_eq_one_iff.mp hlength
    obtain ⟨hoffer, -⟩ := (offersKept_cons hinputs []).mp hkept
    obtain ⟨hstep, hinFlight, htaken⟩ := ready_edge hf hinputs (hready p List.mem_cons_self) hoffer
    have hoff : offered s = true := (offered_iff hf).mpr (Nat.sub_eq_zero_iff_le.mp hk)
    rw [htaken, acceptedWords_succ hstep (acceptsAt_inFlight hf), run_succ hstep]
    exact ⟨inFlightEdge s, rfl, by simp [hoff, takenResponses], rfl, hinFlight.trans (if_pos hoff), rfl, rfl, by simp [hinputs]⟩
  | succ k ih =>
    obtain ⟨p, ps, rfl⟩ := List.exists_cons_of_length_eq_add_one hlength
    obtain ⟨hhead, hrest⟩ := List.forall_mem_cons.mp hready
    obtain ⟨hoffer, hoffers⟩ := (offersKept_cons hinputs ps).mp hkept
    obtain ⟨hstep, hinFlight, htaken⟩ := ready_edge hf hinputs hhead hoffer
    have hoff : offered s = false := by rw [← Bool.not_eq_true, offered_iff hf]; omega
    have hpins : pins s = p := by simp [pins, hinputs]
    rw [htaken, acceptedWords_succ hstep (acceptsAt_inFlight hf), run_succ hstep, hoff]
    refine ih (hinFlight.trans (if_neg (by simp [hoff]))) ?_ (by simp [hinputs]) (Nat.succ.inj hlength) hrest
      (by simpa [hpins] using hoffers)
    rw [inFlightEdge_edge]
    omega

/-- Settles O14: `step_ne_fault`; and the bound on the edges is what is left of the latency (`run_takes`). -/
theorem everyCommandCompletes : Obligations.EveryCommandCompletes := by
  unfold Obligations.EveryCommandCompletes
  refine ⟨fun s x hinv => step_ne_fault hinv x, fun s f _ hf => ?_⟩
  refine ⟨f.since + Config.extraLatency f.since - s.edge, fun ps rest hlength hready hkept => ?_⟩
  exact run_takes (s := { s with inputs := ps ++ rest }) hf rfl rfl hlength hready hkept

/-! The edges refine the transactions. -/

/-- Every state with the units `ck` and `rg` answers the words `ws` with the responses `rs`, in order, and ends with the units `ck'` and
`rg'`. -/
def UnitsRun (ws : List Word) (ck : CkUnit) (rg : RgUnit) (ck' : CkUnit) (rg' : RgUnit) (rs : List Response) : Prop :=
  ∀ s : State, s.ck = ck → s.rg = rg → ∃ u, transactAll ws s = some (u, rs) ∧ u.ck = ck' ∧ u.rg = rg'

theorem UnitsRun.nil (ck : CkUnit) (rg : RgUnit) : UnitsRun [] ck rg ck rg [] :=
  fun s hck hrg => ⟨s, rfl, hck, hrg⟩

theorem UnitsRun.cons {w : Word} {ws : List Word} {s t : State} {f : InFlight} {ck : CkUnit} {rg : RgUnit} {rs : List Response}
    (h : acceptWord w s = .next t) (hf : t.inFlight = some f) (hrest : UnitsRun ws t.ck t.rg ck rg rs) :
    UnitsRun (w :: ws) s.ck s.rg ck rg (f.rsp :: rs) := by
  intro v hck hrg
  obtain ⟨r, hr, -, hunits⟩ := acceptWord_next h
  obtain rfl : InFlight.mk r s.edge = f := Option.some.inj (hr.symm.trans hf)
  obtain ⟨u, hu, hends⟩ := hrest { v with ck := t.ck, rg := t.rg, inFlight := none } rfl rfl
  have hw : transact w v = some ({ v with ck := t.ck, rg := t.rg, inFlight := none }, r) :=
    transact_eq_some.mpr ⟨_, _, hunits v hck hrg, rfl, rfl, rfl⟩
  exact ⟨u, by rw [transactAll_cons hw, hu]; rfl, hends⟩

/-- The response in flight, if there is one. -/
def pending (s : State) : List Response := (s.inFlight.map (·.rsp)).toList

/-- Over any number of edges without reset, from any state: the accepted words as transactions leave the registers of the run, and their
responses follow the one in flight at the start; of these all but the one in flight at the end have been taken. -/
theorem run_refines {k : Nat} {s t : State} (hpins : ∀ p ∈ s.inputs, p.rst = false) (h : Host.Core.run core k s = .next t) :
    ∃ rs, UnitsRun (acceptedWords k s) s.ck s.rg t.ck t.rg rs ∧ pending s ++ rs = takenResponses k s ++ pending t := by
  induction k generalizing s with
  | zero =>
    obtain rfl := Host.Outcome.next.inj h
    exact ⟨[], UnitsRun.nil _ _, by simp [takenResponses]⟩
  | succ k ih =>
    obtain ⟨u, hstep, hrun⟩ := run_succ_next h
    have hrst := pins_of_inputs (P := fun p => p.rst = false) rfl hpins
    obtain ⟨rs, hunits, hresponses⟩ := ih (fun p hp => hpins p (List.mem_of_mem_tail (step_inputs hstep ▸ hp))) hrun
    obtain ⟨hreset, -⟩ | ⟨-, -, ⟨hf, rfl⟩ | ⟨hidle, hvalid, haccept⟩ | ⟨hidle, hvalid, rfl⟩⟩ := step_next_cases hstep
    · simp [hrst] at hreset
    · obtain ⟨f, hf⟩ := Option.isSome_iff_exists.mp hf
      rw [acceptedWords_succ hstep (acceptsAt_inFlight hf), takenResponses_succ_inFlight hstep hf hrst]
      refine ⟨rs, hunits, ?_⟩
      rw [List.append_assoc, ← hresponses, pending, pending, inFlightEdge_inFlight, hf]
      split <;> simp
    · obtain ⟨r, hr, -⟩ := acceptWord_next haccept
      rw [acceptedWords_succ_accepts hstep (acceptsAt_iff.mpr ⟨hrst, hidle, hvalid⟩), takenResponses_succ_idle hstep hidle]
      refine ⟨r :: rs, UnitsRun.cons haccept hr hunits, ?_⟩
      rw [← hresponses, pending, pending, hr, hidle]
      rfl
    · have hnot : acceptsAt s = false := by simp [acceptsAt, hvalid]
      rw [acceptedWords_succ hstep hnot, takenResponses_succ_idle hstep hidle]
      exact ⟨rs, hunits, hresponses⟩

/-- Settles O20: `run_refines` from an idle state. -/
theorem edgesRefineTransactions : Obligations.EdgesRefineTransactions := by
  unfold Obligations.EdgesRefineTransactions
  intro k s t hidle hpins h
  obtain ⟨rs, hunits, hresponses⟩ := run_refines hpins h
  obtain ⟨u, hu, hck, hrg⟩ := hunits s rfl rfl
  refine ⟨u, rs, hu, hck.symm, hrg.symm, ?_⟩
  simpa [pending, hidle] using hresponses

end Sys2Proof.Machine

/-! ### Repeated commands (spec 20_memory C2, C3) -/

namespace Sys2Proof.Machine

section Twice

variable {s t u : State}

theorem onCk_twice {f : CkUnit → CkUnit × Response} (h : onCk f s = .next t) (h' : onCk f { t with inFlight := none } = .next u) :
    t = { s with ck := (f s.ck).1, inFlight := some ⟨(f s.ck).2, s.edge⟩ } ∧
      u = { t with ck := (f t.ck).1, inFlight := some ⟨(f t.ck).2, t.edge⟩ } := by
  rw [onCk_eq_next] at h h'
  exact ⟨h.2, h'.2⟩

theorem onRg_twice {f : RgUnit → RgUnit × Response} (h : onRg f s = .next t) (h' : onRg f { t with inFlight := none } = .next u) :
    t = { s with rg := (f s.rg).1, inFlight := some ⟨(f s.rg).2, s.edge⟩ } ∧
      u = { t with rg := (f t.rg).1, inFlight := some ⟨(f t.rg).2, t.edge⟩ } := by
  rw [onRg_eq_next] at h h'
  exact ⟨h.2, h'.2⟩

/-- A command that writes nothing answers the second time what it answered the first. -/
theorem onCk_reads_twice {f : CkUnit → CkUnit × Response} (hreads : ∀ u, (f u).1 = u) (h : onCk f s = .next t)
    (h' : onCk f { t with inFlight := none } = .next u) :
    t.ck = s.ck ∧ t.rg = s.rg ∧ u.ck = s.ck ∧ u.rg = s.rg ∧ u.inFlight = t.inFlight := by
  obtain ⟨rfl, rfl⟩ := onCk_twice h h'
  simp [hreads]

theorem onRg_reads_twice {f : RgUnit → RgUnit × Response} (hreads : ∀ u, (f u).1 = u) (h : onRg f s = .next t)
    (h' : onRg f { t with inFlight := none } = .next u) :
    t.ck = s.ck ∧ t.rg = s.rg ∧ u.ck = s.ck ∧ u.rg = s.rg ∧ u.inFlight = t.inFlight := by
  obtain ⟨rfl, rfl⟩ := onRg_twice h h'
  simp [hreads]

/-- A command that sets its unit sets it the second time to what it is. -/
theorem onCk_sets_twice {f : CkUnit → CkUnit × Response} (hsets : ∀ u, (f (f u).1).1 = (f u).1) (h : onCk f s = .next t)
    (h' : onCk f { t with inFlight := none } = .next u) : u.ck = t.ck ∧ u.rg = t.rg := by
  obtain ⟨rfl, rfl⟩ := onCk_twice h h'
  exact ⟨hsets s.ck, rfl⟩

theorem onRg_sets_twice {f : RgUnit → RgUnit × Response} (hsets : ∀ u, (f (f u).1).1 = (f u).1) (h : onRg f s = .next t)
    (h' : onRg f { t with inFlight := none } = .next u) : u.ck = t.ck ∧ u.rg = t.rg := by
  obtain ⟨rfl, rfl⟩ := onRg_twice h h'
  exact ⟨rfl, hsets s.rg⟩

end Twice

theorem blockedCk_checkTarget_unit (var : Variant) (u : CkUnit) : (blockedCk (checkTarget var) u).1 = u := by
  unfold blockedCk
  split <;> rfl

theorem latch_latch (err : Code) (st : Status) : latch (latch err st) st = latch err st := by
  by_cases h : err = 0#4
  · by_cases hst : statusCode st = 0#4 <;> simp [latch, h, hst]
  · simp [latch, h]

/-- Configuring again changes nothing, whether the widths are legal or the same error is raised again. -/
theorem configure_twice (iw ow : BitVec 4) (padf : BitVec 1) (u : RgUnit) :
    (configure iw ow padf (configure iw ow padf u).1).1 = (configure iw ow padf u).1 := by
  by_cases h : (1 ≤ iw.toNat ∧ iw.toNat ≤ 8) ∧ (1 ≤ ow.toNat ∧ ow.toNat ≤ 8)
  · simp [configure_legal h]
  · simp [configure_illegal h, latch_latch]

/-- Settles O51: each command on its unit, twice. -/
theorem repeatedCommands : Obligations.RepeatedCommands := by
  unfold Obligations.RepeatedCommands
  intro i s t u h h'
  refine ⟨fun hi => ?_, fun hi => ?_⟩
  · cases i with
    | ckRead => exact onCk_reads_twice (f := showCk) (fun _ => rfl) h h'
    | rgRead => exact onRg_reads_twice (f := showRg) (fun _ => rfl) h h'
    | ckCheck var => exact onCk_reads_twice (blockedCk_checkTarget_unit var) h h'
    | _ => simp [Instr.opcode] at hi
  · cases i with
    | ckInit => exact onCk_sets_twice (f := startChecksum) (fun _ => rfl) h h'
    | rgClr => exact onRg_sets_twice (f := clearRg) (fun _ => rfl) h h'
    | rgCfg iw ow padf => exact onRg_sets_twice (configure_twice iw ow padf) h h'
    | _ => simp [Instr.opcode] at hi

/-! ### Group packing and the alphabet (spec 30_encoding R68; 40_checksum R75) -/

/-- Settles O41: `extract_packGroups`, `groupsResponse_count` and `groupsOf_groupsResponse`. -/
theorem groupPacking : Obligations.GroupPacking := by
  unfold Obligations.GroupPacking
  exact fun gs h => ⟨fun k hk => extract_packGroups hk gs, groupsResponse_count h, groupsOf_groupsResponse h⟩

/-- No character stands twice in the alphabet, so the place the search finds is the only one. -/
theorem findIdx_alphabet_eq_some {ch : Byte} {k : Nat} :
    alphabet.findIdx? (· == ch) = some k ↔ alphabet[k]? = some ch := by
  have hnodup : alphabet.Nodup := by decide
  simp only [List.findIdx?_eq_some_iff_getElem, List.getElem?_eq_some_iff, beq_iff_eq]
  refine ⟨fun ⟨hk, hch, _⟩ => ⟨hk, hch⟩, fun ⟨hk, hch⟩ => ⟨hk, hch, fun j hj heq => ?_⟩⟩
  exact hj.ne (hnodup.getElem_inj_iff.mp (heq.trans hch.symm))

theorem alphaDec_eq_some {ch : Byte} {v : Sym} : alphaDec ch = some v ↔ alphabet[v.toNat]? = some ch := by
  simp only [alphaDec, Option.map_eq_some_iff, findIdx_alphabet_eq_some]
  constructor
  · rintro ⟨k, hk, rfl⟩
    obtain ⟨hlt, -⟩ := List.getElem?_eq_some_iff.mp hk
    have hk32 : k < 2 ^ 5 := hlt
    rwa [BitVec.toNat_ofNat, Nat.mod_eq_of_lt hk32]
  · exact fun hv => ⟨v.toNat, hv, by simp⟩

/-- Settles O25: the characters' codes are the alphabet's. -/
theorem alphabetDecoding : Obligations.AlphabetDecoding := by
  unfold Obligations.AlphabetDecoding
  intro characters ch v
  have hcodes : characters.map Char.toNat = alphabet.map BitVec.toNat := by decide
  rw [alphaDec_eq_some, hcodes, List.getElem?_map]
  cases alphabet[v.toNat]? <;> simp [BitVec.toNat_inj]

end Sys2Proof.Machine
